-- ==== Sys2Proof/Word.lean ====
section
/-! DEFINITION. The data values of the codec (spec/10_state.md R16, spec/30_encoding.md R50, R51, R53) and the
two-valued signal level (spec/00_scope.md R6). Bits are numbered from 0 at the least significant end (R5). -/

namespace Sys2Proof

/-- One data bit: `false` is 0, `true` is 1. -/
abbrev Bit := Bool

/-- A symbol, 2 bits (R51): bit 1 is the first half-bit of the cell, bit 0 the second. -/
abbrev Symbol := BitVec 2

/-- A raw byte, or one stored byte of a unit (R50, R54). -/
abbrev Byte := BitVec 8

/-- An encoded unit, 16 bits, holding the eight symbols of one raw byte (R53). -/
abbrev CodeUnit := BitVec 16

/-- The op-select code `op[2:0]` (R60). -/
abbrev OpSelect := BitVec 3

/-- The signal level (R6, R10, R11): a two-valued type, not a number. -/
inductive Level where
  | low
  | high
  deriving DecidableEq, Repr

end Sys2Proof
end

