-- ==== Sys2Proof/Config.lean ====
section
/-! DEFINITION. The implementation parameters of spec/00_scope.md R4, each with the value this hardware takes.
No value of this machine is left free by the spec (spec/93_implementation_defined.md, U1 to U8: no entry is
treated as "any value" in the hardware's configuration), so no constant here is opaque. -/

namespace Sys2Proof

/-- `SYMBOL_POLICY` of R4: what the decoder does with the symbols `00` and `11` (R75 strict, R76 permissive). -/
inductive SymbolPolicy where
  | strict
  | permissive
  deriving DecidableEq, Repr

namespace Config

/-- `LEVEL_INIT` (R4, R141): the level a stream starts from. -/
abbrev levelInit : Level := .high

/-- `LEVEL_RESET` (R4, R140): the level after hardware reset. -/
abbrev levelReset : Level := .high

/-- The slot of the first symbol: "starting at `encode_bit_i = 8`" (R18, R57). -/
abbrev firstSlot : Nat := 8

/-- The pointer value that wraps to slot 0 (R18, R57). -/
abbrev slotWrap : Nat := 16

/-- `SLOT_ORDER` of R4: the slots of symbols 0 to 7. The coders walk a pointer (R57, R59); that the pointer
visits exactly these slots is a lemma of Laws/Coder.lean. -/
abbrev slotOrder : List Nat := [8, 10, 12, 14, 0, 2, 4, 6]

/-- `SYMBOL_POLICY` of this hardware (R4, spec/92_eei_decisions.md D2). -/
abbrev symbolPolicy : SymbolPolicy := .strict

/-- `LEN_W` (R4, R113): OPEN in the spec. `none` means that lengths are natural numbers of any size (D11);
`some w` would bound them by `2^w - 1`. Log entry 7. -/
abbrev lenW : Option Nat := none

end Config
end Sys2Proof
end

