-- ==== Sys2Proof/Syntax.lean ====
section
/-! DEFINITION. The eight operations of spec/opcode_table.json (spec/30_encoding.md R60, R62), their operands
(R56, R64), and the request ports on which the host puts an operation (spec/92_eei_decisions.md D15). -/

namespace Sys2Proof

/-- A buffer handle (R16 `IN`, `OUT`): one array of the host's memory, `size` bytes long, whose offset `k` is the
host's address `base + k`. Operations name bytes by handle and offset only (R33, R40); log entry 1. -/
structure Handle where
  base : Nat
  size : Nat
  deriving DecidableEq, Repr

/-- The operands of a buffer operation, in the order of R64: `IN, input_len, OUT, output_capacity`. -/
structure Launch where
  inp : Handle
  inputLen : Nat
  out : Handle
  outputCapacity : Nat
  deriving DecidableEq, Repr

/-- One constructor per row of spec/opcode_table.json, with its operands. -/
inductive Instr where
  /-- ENC.START (R70) -/
  | encStart
  /-- ENC.BIT `b` (R73) -/
  | encBit (b : Bit)
  /-- ENC.BYTE `d` (R81) -/
  | encByte (d : Byte)
  /-- ENCODE `IN, input_len, OUT, output_capacity` (R90) -/
  | encodeBuf (l : Launch)
  /-- DEC.START (R71) -/
  | decStart
  /-- DEC.SYM `s` (R75) -/
  | decSym (x : Symbol)
  /-- DEC.UNIT `u` (R84) -/
  | decUnit (u : CodeUnit)
  /-- DECODE `IN, input_len, OUT, output_capacity` (R91) -/
  | decodeBuf (l : Launch)
  deriving DecidableEq, Repr

/-- The mnemonic of R60, as spec/opcode_table.json spells it. -/
def Instr.mnemonic : Instr → String
  | .encStart => "ENC.START"
  | .encBit _ => "ENC.BIT"
  | .encByte _ => "ENC.BYTE"
  | .encodeBuf _ => "ENCODE"
  | .decStart => "DEC.START"
  | .decSym _ => "DEC.SYM"
  | .decUnit _ => "DEC.UNIT"
  | .decodeBuf _ => "DECODE"

/-- The request ports of D15: the op-select code and the operand ports beside it, "each meaningful only for the
operations that use it". An operand port that the host does not drive is written here as 0. -/
structure Request where
  op : OpSelect
  b : Bit := false
  s : Symbol := 0
  d : Byte := 0
  u : CodeUnit := 0
  inputLen : Nat := 0
  outputCapacity : Nat := 0
  inp : Handle := ⟨0, 0⟩
  out : Handle := ⟨0, 0⟩
  deriving DecidableEq, Repr

/-- The four ports of a buffer operation, read as its operands. -/
def Request.launch (r : Request) : Launch := ⟨r.inp, r.inputLen, r.out, r.outputCapacity⟩

end Sys2Proof
end

