-- ==== Sys2Proof/WellFormed.lean ====
section
/-! DEFINITION. Which operations are well formed. The operands of the bit and byte operations have their width in
their type and no illegal value (spec/30_encoding.md R62; an invalid symbol is an ERROR RESULT of a legal
operation, R61). A buffer operation must have truthful lengths (spec/70_reset_and_hazards.md R150) and two
buffers that do not overlap (spec/20_memory.md R42), and its lengths must fit the length ports (R4 `LEN_W`). -/

namespace Sys2Proof

/-- R150: neither length exceeds the real size of its buffer. -/
def Launch.truthful (l : Launch) : Bool :=
  decide (l.inputLen ≤ l.inp.size) && decide (l.outputCapacity ≤ l.out.size)

/-- R42: no address belongs to both buffers, the input being the `input_len` bytes from its handle (R30) and the
output the `output_capacity` bytes from its handle (R31). -/
def Launch.disjoint (l : Launch) : Bool :=
  decide (min (l.inp.base + l.inputLen) (l.out.base + l.outputCapacity) ≤ max l.inp.base l.out.base)

/-- A length fits ports of width `LEN_W`; with no width given every natural number does (D11). -/
def lengthFits (lenW : Option Nat) (n : Nat) : Bool :=
  match lenW with
  | none => true
  | some w => decide (n < 2 ^ w)

/-- The launch conditions of a buffer operation for a given `LEN_W`. -/
def Launch.wellFormedAt (lenW : Option Nat) (l : Launch) : Bool :=
  l.truthful && l.disjoint && lengthFits lenW l.inputLen && lengthFits lenW l.outputCapacity

/-- Well-formedness for a given `LEN_W`. -/
def Instr.wellFormedAt (lenW : Option Nat) : Instr → Bool
  | .encStart => true
  | .encBit _ => true
  | .encByte _ => true
  | .encodeBuf l => l.wellFormedAt lenW
  | .decStart => true
  | .decSym _ => true
  | .decUnit _ => true
  | .decodeBuf l => l.wellFormedAt lenW

/-- Well-formedness on this hardware. -/
def Instr.wellFormed (i : Instr) : Bool := i.wellFormedAt Config.lenW

end Sys2Proof
end

