-- ==== Sys2Proof/Decode.lean ====
section
/-! DEFINITION. The decoder of a request (spec/30_encoding.md R60: `op[2]` selects the half, `op[1:0]` the layer)
and, after it, the encoder. Operands travel beside the op-select code on their own ports, not inside it. -/

namespace Sys2Proof

/-- The operation a request asks for. It never rejects: all eight values of `op[2:0]` are assigned (R62) and no
operand value is illegal. -/
def decode (r : Request) : Instr :=
  match r.op.getLsbD 2, r.op.getLsbD 1, r.op.getLsbD 0 with
  | false, false, false => .encStart
  | false, false, true => .encBit r.b
  | false, true, false => .encByte r.d
  | false, true, true => .encodeBuf r.launch
  | true, false, false => .decStart
  | true, false, true => .decSym r.s
  | true, true, false => .decUnit r.u
  | true, true, true => .decodeBuf r.launch

/-- Why a group of bits is no request. -/
inductive DecodeReject where
  /-- Fewer than the three bits of `op[2:0]` are given. -/
  | noOpSelect
  deriving DecidableEq, Repr

/-- A request given as bits: the three low bits of `w` reach `op[2:0]` and every operand port is 0. The op-select
port has no wire for a higher bit, and spec/opcode_table.json masks each row with 7 (log entry 6). -/
def Request.ofWord (nbits w : Nat) : Except DecodeReject Request :=
  if nbits < 3 then .error .noOpSelect else .ok { op := BitVec.ofNat 3 w }

/-- The instruction the decoder reads from a word numbered as spec/opcode_table.json numbers it. -/
def decodeTableWord (nbits w : Nat) : Option Instr :=
  match Request.ofWord nbits w with
  | .ok r => some (decode r)
  | .error _ => none

/-- The op-select code of each operation, from the table of R60. -/
def Instr.opSelect : Instr → OpSelect
  | .encStart => 0b000#3
  | .encBit _ => 0b001#3
  | .encByte _ => 0b010#3
  | .encodeBuf _ => 0b011#3
  | .decStart => 0b100#3
  | .decSym _ => 0b101#3
  | .decUnit _ => 0b110#3
  | .decodeBuf _ => 0b111#3

/-- The request that asks for an operation: its code, its operands on their ports (R56), the rest at 0. -/
def encode (i : Instr) : Request :=
  match i with
  | .encStart => { op := i.opSelect }
  | .encBit b => { op := i.opSelect, b := b }
  | .encByte d => { op := i.opSelect, d := d }
  | .encodeBuf l =>
    { op := i.opSelect, inp := l.inp, inputLen := l.inputLen, out := l.out, outputCapacity := l.outputCapacity }
  | .decStart => { op := i.opSelect }
  | .decSym x => { op := i.opSelect, s := x }
  | .decUnit u => { op := i.opSelect, u := u }
  | .decodeBuf l =>
    { op := i.opSelect, inp := l.inp, inputLen := l.inputLen, out := l.out, outputCapacity := l.outputCapacity }

/-- A request carries an operation: its code and that operation's operands stand on the ports, and the ports the
operation does not use hold anything (D15: each port is "meaningful only for the operations that use it"). -/
def Request.carries (r : Request) (i : Instr) : Prop :=
  r.op = i.opSelect ∧
    match i with
    | .encStart => True
    | .encBit b => r.b = b
    | .encByte d => r.d = d
    | .encodeBuf l => r.inp = l.inp ∧ r.inputLen = l.inputLen ∧ r.out = l.out ∧ r.outputCapacity = l.outputCapacity
    | .decStart => True
    | .decSym x => r.s = x
    | .decUnit u => r.u = u
    | .decodeBuf l => r.inp = l.inp ∧ r.inputLen = l.inputLen ∧ r.out = l.out ∧ r.outputCapacity = l.outputCapacity

end Sys2Proof
end

