-- ==== Sys2Proof/Machine/State.lean ====
section
/-! DEFINITION. Everything the spec gives the machine: the two level registers (spec/10_state.md R10, R11, R21),
the host's byte memory that holds the buffers (R22), and the transaction-level ports (spec/92_eei_decisions.md
D15): the requests the host has put forward and the response of an operation that has just ended. The accumulators and counters
of R14, R15, R18 and R19 "do not exist between operations" (R24) and are local values of the meanings. -/

namespace Sys2Proof.Machine

/-- The two-bit `status` of an operation (spec/60_exceptions.md R120). -/
inductive Status where
  | ok
  | capacityError
  | lengthError
  | invalidSymbolError
  deriving DecidableEq, Repr

/-- The response ports (D15, R16): the status, and each data result or no value (spec/93_implementation_defined.md
U6: "a model returns none"). `ok` is computed from the status (R120). -/
structure Response where
  status : Status := .ok
  sym : Option Symbol := none
  bit : Option Bit := none
  q : Option CodeUnit := none
  r : Option Byte := none
  deriving DecidableEq, Repr

/-- The host's memory: the bytes of every buffer, by address, in the canonical form of `Memory.wf`. -/
abbrev Memory := List Host.Cell

/-- What stops the machine. No step raises one (statement StepNeverFaults): each says where a function of the spec
has no value. -/
inductive Fault where
  /-- Raised by `memRead` and `memWrite` for an offset outside the operation's buffer, where `MemRead` and
  `MemWrite` are not defined (R30, R31). Safe: the model stops where the spec gives no value. -/
  | outsideBuffer
  /-- Raised by `decBit` for the symbols `00` and `11`, for which `DecBit` has no value (R74). Safe. -/
  | symbolOutsideDomain
  /-- Raised by the host's read of a data result that has no value (D15, U6: such a consumer is at fault). Safe. -/
  | resultHasNoValue
  deriving DecidableEq, Repr

/-- Why a launch has no meaning. -/
inductive Refusal where
  /-- Raised by `exec`'s arm of an operation without a meaning; no arm is left so. Safe. -/
  | notModelled (mnemonic : String)
  /-- Raised by ENCODE and DECODE when the two buffers overlap (R42: "a model refuses it", U4). Safe. -/
  | overlappingBuffers
  /-- Raised by ENCODE and DECODE when a length exceeds the real size of its buffer (R150, U3: refuse). Safe. -/
  | untruthfulLength
  deriving DecidableEq, Repr

/-- The state. `encLevel` and `decLevel` are the whole persistent state of the hardware (R10, R11, R21). `mem` is
the host's (R22, R32). `requests` and `response` are its ports: the operations the host has put forward, in
order (R64; log entry 4), and the response of the operation that ended in this very state, none in any other: ok and
status "are not latched, they are not readable later" (R20; log entry 5). -/
structure State where
  encLevel : Level
  decLevel : Level
  mem : Memory
  requests : List Request
  response : Option Response
  deriving DecidableEq, Repr

/-- After hardware reset (spec/70_reset_and_hazards.md R140, R142, R24): both levels High, idle, no operation
performed, nothing written to memory. -/
def State.reset : State :=
  { encLevel := Config.levelReset, decLevel := Config.levelReset, mem := [], requests := [], response := none }

/-- The outcome of one operation or one step. -/
abbrev Result := Host.Outcome State Fault Refusal

end Sys2Proof.Machine
end

