-- ==== Sys2Proof/Machine/Operands.lean ====
section
/-! DEFINITION. The operand forms and bit-level formats: the level as a bit (R6), half-bits of a symbol (R51),
slots of a unit and the walking slot pointer (R18, R52, R57, R59), a unit as two stored bytes (R34, R35, R54,
R58), the length tests of the buffer operations (R113), and the launch check (R42, R150). -/

namespace Sys2Proof

/-- A level compared with or written into a data bit: Low is 0, High is 1 (R6). -/
def Level.toBit : Level → Bit
  | .low => false
  | .high => true

/-- The level a driven bit stands for (R6, R12). -/
def Level.ofBit : Bit → Level
  | false => .low
  | true => .high

/-- The other level (R109, R112). -/
def Level.flip (l : Level) : Level := .ofBit (!l.toBit)

end Sys2Proof

namespace Sys2Proof.Machine

/-- The symbol `s`'s bit 1, the first half-bit of the cell (R51). -/
def firstHalf (s : Symbol) : Bit := s.getLsbD 1

/-- The symbol `s`'s bit 0, the second half-bit of the cell (R51). -/
def secondHalf (s : Symbol) : Bit := s.getLsbD 0

/-- `10` and `01` are the defined symbols, `00` and `11` are not (R51, R61). -/
def symbolValid (s : Symbol) : Bool := s == 0b10#2 || s == 0b01#2

/-- `v` with bit `p` set to `b` (the primitive `x[i] <- v` of spec/00_scope.md section 6). -/
def setBit (w : Nat) (v : BitVec w) (p : Nat) (b : Bit) : BitVec w :=
  if b then v ||| (1#w <<< p) else v &&& ~~~(1#w <<< p)

/-- A symbol put into slot `p`: its bit 1 at position `p`, its bit 0 at `p + 1` (R52, R57). -/
def placeSymbol (acc : CodeUnit) (p : Nat) (s : Symbol) : CodeUnit :=
  setBit 16 (setBit 16 acc p (firstHalf s)) (p + 1) (secondHalf s)

/-- The symbol `{u[p], u[p+1]}` in slot `p` (R59): its bit 1 is `u[p]`. -/
def slotSymbol (u : CodeUnit) (p : Nat) : Symbol :=
  BitVec.ofBool (u.getLsbD p) ++ BitVec.ofBool (u.getLsbD (p + 1))

/-- The slot pointer's step: `p <- p + 2; if p == 16 then p <- 0` (R18, R57). -/
def nextSlot (p : Nat) : Nat :=
  if p + 2 = Config.slotWrap then 0 else p + 2

/-- The byte of a unit that is stored first, at the lower offset (R34, R54). -/
def highByte (u : CodeUnit) : Byte := u.extractLsb' 8 8

/-- The byte of a unit that is stored second (R34, R54). -/
def lowByte (u : CodeUnit) : Byte := u.extractLsb' 0 8

/-- `IN[i] << 8 | IN[i+1]` on 16 bits (R35, R58). -/
def joinBytes (hi lo : Byte) : CodeUnit := (hi.zeroExtend 16 <<< 8) ||| lo.zeroExtend 16

/-- `parity(d)`: the XOR of the eight bits (spec/00_scope.md section 5). -/
def parity (d : Byte) : Bit :=
  (List.range 8).foldl (fun acc i => acc ^^ d.getLsbD i) false

/-- ENCODE's capacity check fails: `input_len * 2 > output_capacity`, exact (R90, R113, R121). -/
def encodeTooSmall (l : Launch) : Bool := decide (l.inputLen * 2 > l.outputCapacity)

/-- DECODE's capacity check fails: `output_capacity * 2 < input_len`, exact (R91, R113, R121). -/
def decodeTooSmall (l : Launch) : Bool := decide (l.outputCapacity * 2 < l.inputLen)

/-- DECODE's length check fails: `input_len` is odd (R91, R122). -/
def oddLength (l : Launch) : Bool := l.inputLen % 2 == 1

/-- ENCODE's capacity check on length ports of `w` bits, the product formed on `w + 1` bits (R113 b). -/
def encodeTooSmallPorts (w : Nat) (inputLen outputCapacity : BitVec w) : Bool :=
  (outputCapacity.zeroExtend (w + 1)).ult (inputLen.zeroExtend (w + 1) <<< 1)

/-- DECODE's capacity check on length ports of `w` bits, the product formed on `w + 1` bits (R113 b). -/
def decodeTooSmallPorts (w : Nat) (inputLen outputCapacity : BitVec w) : Bool :=
  (outputCapacity.zeroExtend (w + 1) <<< 1).ult (inputLen.zeroExtend (w + 1))

/-- Some address lies in both `[a, a + m)` and `[b, b + n)`. -/
def regionsMeet (a m b n : Nat) : Bool :=
  decide (0 < m) && decide (0 < n) && decide (a < b + n) && decide (b < a + m)

/-- What a launch is refused for, if anything (log entry 9): lengths beyond the real buffers (R150, U3), or
buffers that overlap (R42, U4). -/
def launchRefusal (l : Launch) : Option Refusal :=
  if l.inp.size < l.inputLen || l.out.size < l.outputCapacity then some .untruthfulLength
  else if regionsMeet l.inp.base l.inputLen l.out.base l.outputCapacity then some .overlappingBuffers
  else none

end Sys2Proof.Machine
end

