-- ==== Sys2Proof/Machine/Flags.lean ====
section
/-! DEFINITION. What stands in the place of flags. The hardware has no flag, condition code or predicate that
persists and no operation writes one (spec/10_state.md R20); each operation answers `ok` and `status`, results of
that operation only (spec/60_exceptions.md R120). -/

namespace Sys2Proof.Machine

/-- The two-bit code of a status (R120). -/
def Status.code : Status → BitVec 2
  | .ok => 0b00#2
  | .capacityError => 0b01#2
  | .lengthError => 0b10#2
  | .invalidSymbolError => 0b11#2

/-- `ok = (status == OK)` (R120), the source's boolean return (R93). -/
def Response.ok (r : Response) : Bool := r.status.code == Status.code .ok

/-- The number of data results that have a value. -/
def Response.dataResults (r : Response) : Nat :=
  r.sym.isSome.toNat + r.bit.isSome.toNat + r.q.isSome.toNat + r.r.isSome.toNat

end Sys2Proof.Machine
end

