-- ==== Sys2Proof/Machine/Ops.lean ====
section
/-! DEFINITION. The named operations over memory, the level registers and the ports, and the two ways an operation
ends: `return` (spec/00_scope.md section 6) and `raise`, the one shared form of every error (spec/60_exceptions.md
R126, R127: an error changes nothing and goes to the host as a success does; there is no trap entry and, R128,
nothing to return from). -/

namespace Sys2Proof.Machine

/-- What an address that memory does not list reads as (log entry 2: DESIGN CHOICE, the buffers' contents are the
host's). -/
def Memory.unlisted : Byte := 0

/-- The canonical form: addresses strictly rising, no entry equal to what an unlisted address reads as. -/
abbrev Memory.wf (m : Memory) : Prop :=
  m.Pairwise (fun a b => a.1 < b.1) ∧ ∀ c ∈ m, c.2 ≠ Memory.unlisted

/-- One byte of memory. -/
def Memory.read (m : Memory) (a : Nat) : Byte :=
  match m with
  | [] => Memory.unlisted
  | c :: rest => if c.1 = a then c.2 else Memory.read rest a

/-- Memory with one byte written, in canonical form again. -/
def Memory.write (m : Memory) (a : Nat) (v : Byte) : Memory :=
  match m with
  | [] => if v = Memory.unlisted then [] else [(a, v)]
  | c :: rest =>
    if a < c.1 then (if v = Memory.unlisted then c :: rest else (a, v) :: c :: rest)
    else if a = c.1 then (if v = Memory.unlisted then rest else (a, v) :: rest)
    else c :: Memory.write rest a v

/-- The `n` bytes from address `a`. -/
def Memory.readBytes (m : Memory) (a n : Nat) : List Byte :=
  match n with
  | 0 => []
  | k + 1 => m.read a :: Memory.readBytes m (a + 1) k

/-- Bytes written one after another from address `a` up. -/
def Memory.writeBytes (m : Memory) (a : Nat) (bs : List Byte) : Memory :=
  match bs with
  | [] => m
  | b :: rest => Memory.writeBytes (m.write a b) (a + 1) rest

/-- `MemRead(IN + k, 1)`, defined for `k < input_len` only (R30, R38). -/
def memRead (l : Launch) (m : Memory) (k : Nat) : Except Fault Byte :=
  if k < l.inputLen then .ok (m.read (l.inp.base + k)) else .error .outsideBuffer

/-- `MemWrite(OUT + k, 1, v)`, defined for `k < output_capacity` only (R31, R38). -/
def memWrite (l : Launch) (m : Memory) (k : Nat) (v : Byte) : Except Fault Memory :=
  if k < l.outputCapacity then .ok (m.write (l.out.base + k) v) else .error .outsideBuffer

/-- `ENC_LEVEL <- v`. -/
def State.setEncLevel (s : State) (v : Level) : State := { s with encLevel := v }

/-- `DEC_LEVEL <- v`. -/
def State.setDecLevel (s : State) (v : Level) : State := { s with decLevel := v }

/-- Memory after the writes of an operation. -/
def State.setMem (s : State) (m : Memory) : State := { s with mem := m }

/-- The response ports take a new value. -/
def State.setResponse (s : State) (r : Response) : State := { s with response := some r }

/-- The response ports hold nothing any more: results are "results of that operation only", "not latched" and "not
readable later" (spec/10_state.md R20). -/
def State.dropResponse (s : State) : State := { s with response := none }

/-- The request ports take a new value. -/
def State.setRequests (s : State) (rs : List Request) : State := { s with requests := rs }

/-- `return (...)`: the operation ends with `ok = true`, `status = OK` and its data results. -/
def returnOk (r : Response) (s : State) : Result := .next (s.setResponse r)

/-- `raise <Error>`: the operation ends with `ok = false`, the status and no data result; nothing else changes
(R126). -/
def raiseError (e : Status) (s : State) : Result := .next (s.setResponse { status := e })

/-- A value of a partial function of the spec is used where it exists; where it does not the machine stops. -/
def orFault (α : Type) (e : Except Fault α) (k : α → Result) : Result :=
  match e with
  | .ok a => k a
  | .error f => .fault f

end Sys2Proof.Machine
end

