-- ==== Sys2Proof/Machine/BitCoder.lean ====
section
/-! DEFINITION. Level control and the bit coder, L1 (spec/40_bit_coder.md): ENC.START, DEC.START, ENC.BIT,
DEC.SYM. -/

namespace Sys2Proof.Machine

/-- `EncBit(b, l)` (R72). -/
def encBit (b : Bit) (l : Level) : Symbol × Level :=
  if b = l.toBit then (0b10#2, .low) else (0b01#2, .high)

/-- `DecBit(s, l)` (R74): no value for `00` and `11`. -/
def decBit (x : Symbol) (l : Level) : Except Fault (Bit × Level) :=
  if x = 0b10#2 then .ok (l.toBit, .low)
  else if x = 0b01#2 then .ok (!l.toBit, .high)
  else .error .symbolOutsideDomain

/-- `DecBitPermissive(s, l)` (R76): the reference implementation's, total. -/
def decBitPermissive (x : Symbol) (l : Level) : Bit × Level :=
  if x = 0b10#2 then (l.toBit, .low) else (!l.toBit, .high)

/-- The bit decoder under a symbol policy (R75, R76). -/
def decBitUnder (p : SymbolPolicy) (x : Symbol) (l : Level) : Except Fault (Bit × Level) :=
  match p with
  | .strict => decBit x l
  | .permissive => .ok (decBitPermissive x l)

/-- Under the policy the symbol is an error (R61, R75; never under the permissive policy, R76). -/
def symbolRejected (p : SymbolPolicy) (x : Symbol) : Bool :=
  match p with
  | .strict => !symbolValid x
  | .permissive => false

/-- ENC.START (R70). -/
def execEncStart (s : State) : Result :=
  returnOk {} (s.setEncLevel Config.levelInit)

/-- DEC.START (R71). -/
def execDecStart (s : State) : Result :=
  returnOk {} (s.setDecLevel Config.levelInit)

/-- ENC.BIT (R73). -/
def execEncBit (b : Bit) (s : State) : Result :=
  returnOk { sym := some (encBit b s.encLevel).1 } (s.setEncLevel (encBit b s.encLevel).2)

/-- DEC.SYM under a symbol policy (R75, R76). -/
def decSymUnder (p : SymbolPolicy) (x : Symbol) (s : State) : Result :=
  if symbolRejected p x then raiseError .invalidSymbolError s
  else orFault _ (decBitUnder p x s.decLevel) fun out =>
    returnOk { bit := some out.1 } (s.setDecLevel out.2)

/-- DEC.SYM of this hardware (R75). -/
def execDecSym (x : Symbol) (s : State) : Result := decSymUnder Config.symbolPolicy x s

end Sys2Proof.Machine
end

