-- ==== Sys2Proof/Machine/ByteCoder.lean ====
section
/-! DEFINITION. The byte coder, L2 (spec/41_byte_coder.md): ENC.BYTE, DEC.UNIT. The counters `i`, `k`, `p` and the
accumulators `acc`, `dacc` of spec/10_state.md R14, R15, R18 are arguments of the loops. -/

namespace Sys2Proof.Machine

/-- The last `n` steps of `EncByte`'s loop, from index `i`, pointer `p`, accumulator `acc` and level `l` (R80). -/
def encByteLoop (d : Byte) (n i p : Nat) (acc : CodeUnit) (l : Level) : CodeUnit × Level :=
  match n with
  | 0 => (acc, l)
  | k + 1 =>
    let out := encBit (d.getLsbD i) l
    encByteLoop d k (i + 1) (nextSlot p) (placeSymbol acc p out.1) out.2

/-- `EncByte(d, l)` (R80). -/
def encByte (d : Byte) (l : Level) : CodeUnit × Level := encByteLoop d 8 0 Config.firstSlot 0 l

/-- `UnitValid(u)` (R82): no slot holds `00` or `11`. It reads no level. -/
def unitValid (u : CodeUnit) : Bool :=
  (List.range 8).all fun j => u.getLsbD (2 * j) != u.getLsbD (2 * j + 1)

/-- The last `n` steps of `DecByte`'s loop, from position `k`, pointer `p`, accumulator `dacc` and level `l`
(R83; with `DecBitPermissive` under the permissive policy, R87). -/
def decByteLoop (pol : SymbolPolicy) (u : CodeUnit) (n k p : Nat) (dacc : Byte) (l : Level) :
    Except Fault (Byte × Level) :=
  match n with
  | 0 => .ok (dacc, l)
  | j + 1 =>
    match decBitUnder pol (slotSymbol u p) l with
    | .ok out => decByteLoop pol u j (k + 1) (nextSlot p) (setBit 8 dacc k out.1) out.2
    | .error f => .error f

/-- `DecByte(u, l)` (R83), or `DecBytePermissive(u, l)` (R87). -/
def decByteUnder (pol : SymbolPolicy) (u : CodeUnit) (l : Level) : Except Fault (Byte × Level) :=
  decByteLoop pol u 8 0 Config.firstSlot 0 l

/-- Under the policy the unit is an error (R84; never under the permissive policy, R87). -/
def unitRejected (pol : SymbolPolicy) (u : CodeUnit) : Bool :=
  match pol with
  | .strict => !unitValid u
  | .permissive => false

/-- The last `n` steps of `NibEnc` from bit `j` (R86). -/
def nibEncLoop (x : BitVec 4) (n j : Nat) (y : Byte) (l : Level) : Byte × Level :=
  match n with
  | 0 => (y, l)
  | k + 1 =>
    let out := encBit (x.getLsbD j) l
    nibEncLoop x k (j + 1) (setBit 8 (setBit 8 y (2 * j) (firstHalf out.1)) (2 * j + 1) (secondHalf out.1)) out.2

/-- `NibEnc(n, l)` (R86): a fact about ENC.BYTE, not an operation (R65). -/
def nibEnc (x : BitVec 4) (l : Level) : Byte × Level := nibEncLoop x 4 0 0 l

/-- ENC.BYTE (R81). -/
def execEncByte (d : Byte) (s : State) : Result :=
  returnOk { q := some (encByte d s.encLevel).1 } (s.setEncLevel (encByte d s.encLevel).2)

/-- DEC.UNIT under a symbol policy (R84, R87). -/
def decUnitUnder (pol : SymbolPolicy) (u : CodeUnit) (s : State) : Result :=
  if unitRejected pol u then raiseError .invalidSymbolError s
  else orFault _ (decByteUnder pol u s.decLevel) fun out =>
    returnOk { r := some out.1 } (s.setDecLevel out.2)

/-- DEC.UNIT of this hardware (R84). -/
def execDecUnit (u : CodeUnit) (s : State) : Result := decUnitUnder Config.symbolPolicy u s

end Sys2Proof.Machine
end

