-- ==== Sys2Proof/Machine/BufferCoder.lean ====
section
/-! DEFINITION. The buffer coder, L3 (spec/42_buffer_coder.md): ENCODE, DECODE. Every byte goes through `memRead`
and `memWrite`; an operation is one atomic transaction (spec/20_memory.md R41), so the level it carries is a local
value until the operation ends. -/

namespace Sys2Proof.Machine

/-- The last `n` steps of ENCODE's loop from input offset `k` (R90): one byte read, its unit written high byte
first. -/
def encodeLoop (la : Launch) (n k : Nat) (l : Level) (m : Memory) : Except Fault (Level × Memory) :=
  match n with
  | 0 => .ok (l, m)
  | j + 1 => do
    let d ← memRead la m k
    let q := (encByte d l).1
    let m₁ ← memWrite la m (2 * k) (highByte q)
    let m₂ ← memWrite la m₁ (2 * k + 1) (lowByte q)
    encodeLoop la j (k + 1) (encByte d l).2 m₂

/-- The unit whose first stored byte is at input offset `i` (R35, R58). -/
def readUnit (la : Launch) (m : Memory) (i : Nat) : Except Fault CodeUnit := do
  let hi ← memRead la m i
  let lo ← memRead la m (i + 1)
  return joinBytes hi lo

/-- DECODE's third check over the last `n` units from input offset `i` (R91): whether none is an error. -/
def validateLoop (pol : SymbolPolicy) (la : Launch) (n i : Nat) (m : Memory) : Except Fault Bool :=
  match n with
  | 0 => .ok true
  | j + 1 => do
    let u ← readUnit la m i
    if unitRejected pol u then return false else validateLoop pol la j (i + 2) m

/-- The last `n` steps of DECODE's loop from input offset `i` (R91): one unit read, one byte written. -/
def decodeLoop (pol : SymbolPolicy) (la : Launch) (n i : Nat) (l : Level) (m : Memory) :
    Except Fault (Level × Memory) :=
  match n with
  | 0 => .ok (l, m)
  | j + 1 => do
    let u ← readUnit la m i
    let out ← decByteUnder pol u l
    let m₁ ← memWrite la m (i / 2) out.1
    decodeLoop pol la j (i + 2) out.2 m₁

/-- ENCODE (R90). -/
def execEncodeBuf (la : Launch) (s : State) : Result :=
  match launchRefusal la with
  | some why => .refused why
  | none =>
    if encodeTooSmall la then raiseError .capacityError s
    else orFault _ (encodeLoop la la.inputLen 0 Config.levelInit s.mem) fun out =>
      returnOk {} ((s.setMem out.2).setEncLevel out.1)

/-- DECODE under a symbol policy (R91, R94), the checks in the order of spec/60_exceptions.md R125. -/
def decodeBufUnder (pol : SymbolPolicy) (la : Launch) (s : State) : Result :=
  match launchRefusal la with
  | some why => .refused why
  | none =>
    if decodeTooSmall la then raiseError .capacityError s
    else if oddLength la then raiseError .lengthError s
    else orFault _ (validateLoop pol la (la.inputLen / 2) 0 s.mem) fun valid =>
      if valid then
        orFault _ (decodeLoop pol la (la.inputLen / 2) 0 Config.levelInit s.mem) fun out =>
          returnOk {} ((s.setMem out.2).setDecLevel out.1)
      else raiseError .invalidSymbolError s

/-- DECODE of this hardware (R91). -/
def execDecodeBuf (la : Launch) (s : State) : Result := decodeBufUnder Config.symbolPolicy la s

end Sys2Proof.Machine
end

