-- ==== Sys2Proof/Machine/Dispatch.lean ====
section
/-! DEFINITION. One arm per operation of spec/opcode_table.json. -/

namespace Sys2Proof.Machine

def exec (i : Instr) (s : State) : Host.Outcome State Fault Refusal :=
  match i with
  | .encStart => Sys2Proof.Machine.execEncStart s
  | .encBit b => Sys2Proof.Machine.execEncBit b s
  | .encByte d => Sys2Proof.Machine.execEncByte d s
  | .encodeBuf l => Sys2Proof.Machine.execEncodeBuf l s
  | .decStart => Sys2Proof.Machine.execDecStart s
  | .decSym x => Sys2Proof.Machine.execDecSym x s
  | .decUnit u => Sys2Proof.Machine.execDecUnit u s
  | .decodeBuf l => Sys2Proof.Machine.execDecodeBuf l s

end Sys2Proof.Machine
end

