-- ==== Sys2Proof/Machine/Step.lean ====
section
/-! DEFINITION. One step: the operation at the head of the request ports, performed as one atomic transaction
(spec/70_reset_and_hazards.md R153). There is no program counter and no fetch (spec/10_state.md R17). -/

namespace Sys2Proof.Machine

/-- One step. With no request the hardware "is idle and waits for the host's first operation" (R142): nothing changes,
and the results of an earlier operation are no longer on the ports (R20). Otherwise the first request is taken off the
ports and its operation performed, whose own response replaces any other. -/
def step (s : State) : Host.Outcome State Fault Refusal :=
  match s.requests with
  | [] => .next s.dropResponse
  | r :: rest => exec (decode r) (s.setRequests rest)

/-- `s` with the operation whose code is `w` at the head of the request ports, every operand port 0. A word with
too few bits for an op-select code (the decoder refuses it) leaves the state as it is. -/
def State.withFetchWord (s : State) (nbits w : Nat) : State :=
  match Request.ofWord nbits w with
  | .ok r => s.setRequests (r :: s.requests.tail)
  | .error _ => s

end Sys2Proof.Machine
end

