-- ==== Sys2Proof/Machine/Stream.lean ====
section
/-! DEFINITION. The notation `enc(B)` and `dec(E)` of spec/43_laws.md as functions of byte sequences, built from the
byte coder alone (R115): what a buffer of bytes encodes to, away from memory. No meaning calls them; the statements
compare the operations with them. -/

namespace Sys2Proof.Machine

/-- The units of a byte sequence coded one after another from a level, and the level after the last (R111). -/
def encodeUnits (l : Level) (ds : List Byte) : List CodeUnit × Level :=
  match ds with
  | [] => ([], l)
  | d :: rest =>
    let tail := encodeUnits (encByte d l).2 rest
    ((encByte d l).1 :: tail.1, tail.2)

/-- Units as stored, each high byte first (R34, R54). -/
def storeUnits (us : List CodeUnit) : List Byte :=
  match us with
  | [] => []
  | u :: rest => highByte u :: lowByte u :: storeUnits rest

/-- `enc(B)` (spec/43_laws.md): the stored units of `B`, coded from High. -/
def enc (ds : List Byte) : List Byte := storeUnits (encodeUnits Config.levelInit ds).1

/-- The units of a stored byte sequence, paired from its first byte (R35, R36); a last single byte is no unit. -/
def loadUnits (bs : List Byte) : List CodeUnit :=
  match bs with
  | hi :: lo :: rest => joinBytes hi lo :: loadUnits rest
  | _ => []

/-- The bytes of a unit sequence decoded one after another from a level, and the level after the last (R111). -/
def decodeUnits (pol : SymbolPolicy) (l : Level) (us : List CodeUnit) : Except Fault (List Byte × Level) :=
  match us with
  | [] => .ok ([], l)
  | u :: rest => do
    let out ← decByteUnder pol u l
    let tail ← decodeUnits pol out.2 rest
    return (out.1 :: tail.1, tail.2)

/-- `dec(E)` (spec/43_laws.md): the bytes of the stored units of `E`, decoded from High. -/
def dec (bs : List Byte) : Except Fault (List Byte) :=
  (decodeUnits Config.symbolPolicy Config.levelInit (loadUnits bs)).map Prod.fst

/-- `L_n` of R85: the level, as a bit, after the low `n` bits of `d` have been coded from the level `b`. -/
def runningParity (b : Bit) (d : Byte) (n : Nat) : Bit :=
  match n with
  | 0 => b
  | k + 1 => runningParity b d k ^^ d.getLsbD k

/-- The XOR of all bits of a byte sequence (R108). -/
def parityOf (ds : List Byte) : Bit :=
  match ds with
  | [] => false
  | d :: rest => parity d ^^ parityOf rest

/-- The bits of a byte sequence in the order they are coded: each byte from bit 0 to bit 7 (R50, R55). -/
def bitsOf (bs : List Byte) : List Bit :=
  match bs with
  | [] => []
  | b :: rest => (List.range 8).map (fun i => b.getLsbD i) ++ bitsOf rest

/-- The half-bits of data bits coded one after another from a level, first half-bit before second (R51, R55). -/
def halfBits (l : Level) (bs : List Bit) : List Bit :=
  match bs with
  | [] => []
  | b :: rest => firstHalf (encBit b l).1 :: secondHalf (encBit b l).1 :: halfBits (encBit b l).2 rest

/-- A unit with each slot that holds `00` or `11` made to hold `01`, for the slots 0 to `2 * n - 2` (R87: such a slot "decodes as
if it held `01`"). -/
def asIf01 (u : CodeUnit) (n : Nat) : CodeUnit :=
  match n with
  | 0 => u
  | k + 1 =>
    let v := asIf01 u k
    if symbolValid (slotSymbol u (2 * k)) then v else placeSymbol v (2 * k) 0b01#2

/-- The nibbles of two neighbouring raw bytes regrouped as R148 says: `{b[3:0], a[7:4]}`. -/
def regroup (a b : Byte) : Byte := b.extractLsb' 0 4 ++ a.extractLsb' 4 4

end Sys2Proof.Machine
end

