-- ==== Sys2Proof/Machine/HostPort.lean ====
section
/-! DEFINITION. What the host can do to the machine between operations (spec/00_scope.md section 8 item 8,
spec/20_memory.md R32, R42): put an operation forward, write its own memory, assert hardware reset
(spec/70_reset_and_hazards.md R140), and read the results of the operation that has just ended
(spec/92_eei_decisions.md D15). Whatever the host does next, those results are no longer readable after it
(spec/10_state.md R20). No step calls these; between two steps the host may apply any of them. -/

namespace Sys2Proof.Machine

/-- The host puts one more operation forward. -/
def State.issue (s : State) (r : Request) : State := (s.setRequests (s.requests ++ [r])).dropResponse

/-- The host writes a byte of its own memory (R32: "Buffers are caller-owned"). -/
def State.hostWrite (s : State) (a : Nat) (v : Byte) : State := (s.setMem (s.mem.write a v)).dropResponse

/-- Hardware reset (R140): both levels High, no operation performed yet; the host's memory and what it has put
forward are not the hardware's (log entry 11). -/
def State.hardReset (s : State) : State :=
  ((s.setEncLevel Config.levelReset).setDecLevel Config.levelReset).dropResponse

/-- The value of a data result; reading one that has no value is a fault (D15, U6). -/
def resultOf (α : Type) (s : State) (pick : Response → Option α) : Except Fault α :=
  match s.response.bind pick with
  | some v => .ok v
  | none => .error .resultHasNoValue

/-- The result `sym` of ENC.BIT. -/
def State.readSym (s : State) : Except Fault Symbol := resultOf _ s Response.sym

/-- The result `bit` of DEC.SYM. -/
def State.readBit (s : State) : Except Fault Bit := resultOf _ s Response.bit

/-- The result `q` of ENC.BYTE. -/
def State.readQ (s : State) : Except Fault CodeUnit := resultOf _ s Response.q

/-- The result `r` of DEC.UNIT. -/
def State.readR (s : State) : Except Fault Byte := resultOf _ s Response.r

/-- The result `ok` of the operation that has just ended; before any operation it does not exist (R24), and later it is
not readable (R20). -/
def State.readOk (s : State) : Except Fault Bool := resultOf _ s fun r => some r.ok

/-- The result `status` of the operation that has just ended, as its code; otherwise as `readOk`. -/
def State.readStatus (s : State) : Except Fault (BitVec 2) := resultOf _ s fun r => some r.status.code

end Sys2Proof.Machine
end

