-- ==== Sys2Proof/Safety.lean ====
section
/-! DEFINITION. What the statements call a good state and a run of operations. -/

namespace Sys2Proof.Machine

/-- What the last response must say of a state: no data result beside an error and at most one in all
(spec/92_eei_decisions.md D15, U6); a symbol emitted is `10` or `01` (R104) and its second half-bit is the
encoder's level (R12); a unit emitted is valid (R104) and its bit 7 is the encoder's level (R85). -/
def responseFits (r : Response) (s : State) : Prop :=
  (r.status ≠ .ok → r.dataResults = 0) ∧ r.dataResults ≤ 1 ∧
  (∀ x, r.sym = some x → symbolValid x = true ∧ secondHalf x = s.encLevel.toBit) ∧
  (∀ q, r.q = some q → unitValid q = true ∧ q.getLsbD 7 = s.encLevel.toBit)

/-- The invariant of the machine: memory is in canonical form and the last response fits the state. -/
def Inv (s : State) : Prop := s.mem.wf ∧ ∀ r, s.response = some r → responseFits r s

/-- Operations of the encoder's half, `op[2] = 0` (R60). -/
def isEncoderOp : Instr → Bool
  | .encStart => true
  | .encBit _ => true
  | .encByte _ => true
  | .encodeBuf _ => true
  | .decStart => false
  | .decSym _ => false
  | .decUnit _ => false
  | .decodeBuf _ => false

/-- The host issues operations one at a time, in order (R64): the state at the end and the responses, or none when
one of them stops. -/
def runOps (is : List Instr) (s : State) : Option (State × List (Option Response)) :=
  match is with
  | [] => some (s, [])
  | i :: rest =>
    match exec i s with
    | .next t => (runOps rest t).map fun out => (out.1, t.response :: out.2)
    | .fault _ => none
    | .refused _ => none

/-- The operands of a buffer operation, if it is one. -/
def launchOf : Instr → Option Launch
  | .encStart => none
  | .encBit _ => none
  | .encByte _ => none
  | .encodeBuf l => some l
  | .decStart => none
  | .decSym _ => none
  | .decUnit _ => none
  | .decodeBuf l => some l

/-- Two operations use disjoint buffers (R42, R132): neither writes where the other reads or writes. -/
def buffersApart (i j : Instr) : Prop :=
  ∀ l m, launchOf i = some l → launchOf j = some m →
    regionsMeet l.out.base l.outputCapacity m.inp.base m.inputLen = false ∧
    regionsMeet l.out.base l.outputCapacity m.out.base m.outputCapacity = false ∧
    regionsMeet l.inp.base l.inputLen m.out.base m.outputCapacity = false

/-- No result can be read: each of the host's six reads is the fault of a result that has no value
(spec/92_eei_decisions.md D15). -/
def noResults (s : State) : Prop :=
  s.readOk = .error .resultHasNoValue ∧ s.readStatus = .error .resultHasNoValue ∧
  s.readSym = .error .resultHasNoValue ∧ s.readBit = .error .resultHasNoValue ∧
  s.readQ = .error .resultHasNoValue ∧ s.readR = .error .resultHasNoValue

/-- The address lies outside the `n` bytes from `base`. -/
def outsideRegion (base n a : Nat) : Prop := a < base ∨ base + n ≤ a

end Sys2Proof.Machine
end

