-- ==== Sys2Proof/Certificates/Slice0/Obligations.lean ====
section
/-! DEFINITION. The statements for the provers. Each docstring says what it formalises; a statement that rests on a
decision or a derivation the spec marks as its own, or on a choice of this model, says so. -/

open Sys2Proof Sys2Proof.Machine

/-! ### Reset, the request ports, the step -/

/-- R140, R142, R24 (the High after hardware reset is the spec's decision D9; the empty request and response ports are
this model's, log entries 4 and 5, and so is the empty memory, log entry 2): after reset both levels are High, nothing
has been asked or answered, and a step changes nothing until the host asks. -/
def Obligations.ResetLevelsHighAndIdle : Prop :=
  State.reset.encLevel = .high ∧ State.reset.decLevel = .high ∧ State.reset.requests = [] ∧
    State.reset.response = none ∧ State.reset.mem = [] ∧ step State.reset = .next State.reset

/-- R140 (decision D9): a block fresh from hardware reset behaves as one on which ENC.START and DEC.START have just
been issued, whatever it did before: the same levels and the same memory, so the same outcome of every operation. -/
def Obligations.HardResetActsAsBothStarts : Prop :=
  ∀ (s : State) (i : Instr), ∃ t, runOps [.encStart, .decStart] s = some (t, [some {}, some {}]) ∧
    exec i t = exec i s.hardReset

/-- The machine's invariant holds at reset. -/
def Obligations.InvariantHoldsAtReset : Prop := Inv State.reset

/-- The invariant is kept by every step, from every state: memory stays canonical (the model's form, log entries 1 and
2), no data result stands beside an error (D15, U6), a symbol or unit on the ports is valid (R104) and ends at the
encoder's level (R12). -/
def Obligations.StepKeepsInvariant : Prop :=
  ∀ s t : State, Inv s → step s = .next t → Inv t

/-- The host's own actions between operations keep the invariant (log entries 4, 5 and 11, the model's host): asking for an
operation and writing its memory; and hardware reset. -/
def Obligations.HostActionsKeepInvariant : Prop :=
  ∀ (s : State) (r : Request) (a : Nat) (v : Byte), Inv s →
    Inv (s.issue r) ∧ Inv (s.hostWrite a v) ∧ Inv s.hardReset ∧
    (s.hostWrite a v).mem.read a = v ∧ ∀ b, b ≠ a → (s.hostWrite a v).mem.read b = s.mem.read b

/-- No step faults, from any state: every `MemRead` and `MemWrite` of an operation is inside its buffer (R31, R113 d)
and `DecBit` is never asked for a symbol it has no value for (R124: there is no other error). -/
def Obligations.StepNeverFaults : Prop :=
  ∀ (s : State) (f : Fault), step s ≠ .fault f

/-- A step performs the decoded operation: with a request at the head of the ports, it is the meaning of the decoded
operation at the state with that request taken off; in particular of `i` when the request encodes `i`. With no request
it changes nothing (R142) but that an earlier response is no longer on its ports (R20); the list of requests and the
response in State are this model's, log entries 4 and 5. -/
def Obligations.StepRunsDecodedRequest : Prop :=
  ∀ (s : State) (rest : List Request),
    (∀ r, step (s.setRequests (r :: rest)) = exec (decode r) (s.setRequests rest)) ∧
    (∀ i : Instr, i.wellFormed = true → step (s.setRequests (encode i :: rest)) = exec i (s.setRequests rest)) ∧
    step (s.setRequests []) = .next { s with requests := [], response := none }

/-! ### Encoding -/

/-- R60, R62 and D15 (the codes are the spec's decision D7): a request decodes to `i` exactly when its op-select code
is `i`'s and `i`'s operands stand on their ports, whatever the ports `i` does not use hold; the encoder's request is
such a one. -/
def Obligations.DecodeReadsExactlyTheCarriedOperation : Prop :=
  (∀ (r : Request) (i : Instr), decode r = i ↔ r.carries i) ∧ ∀ i : Instr, decode (encode i) = i

/-- R60: the eight codes, written out, decode to the eight operations (operand ports 0, log entry 6); a word too short
to hold a code is refused. -/
def Obligations.OpSelectWordsDecode : Prop :=
  decodeTableWord 8 0b000 = some .encStart ∧ decodeTableWord 8 0b001 = some (.encBit false) ∧
  decodeTableWord 8 0b010 = some (.encByte 0) ∧
  decodeTableWord 8 0b011 = some (.encodeBuf ⟨⟨0, 0⟩, 0, ⟨0, 0⟩, 0⟩) ∧
  decodeTableWord 8 0b100 = some .decStart ∧ decodeTableWord 8 0b101 = some (.decSym 0) ∧
  decodeTableWord 8 0b110 = some (.decUnit 0) ∧
  decodeTableWord 8 0b111 = some (.decodeBuf ⟨⟨0, 0⟩, 0, ⟨0, 0⟩, 0⟩) ∧ decodeTableWord 2 0 = none

/-! ### Level control and the bit coder -/

/-- R70 (an operation of its own by decision D7): ENC.START loads High into the encoder's level and changes nothing
else but the response, which is `ok` without data. -/
def Obligations.EncStartLoadsHigh : Prop :=
  ∀ s : State, exec .encStart s = .next { s with encLevel := .high, response := some { status := .ok } }

/-- R71 (an operation of its own by decision D7): DEC.START loads High into the decoder's level and changes nothing
else but the response, which is `ok` without data. -/
def Obligations.DecStartLoadsHigh : Prop :=
  ∀ s : State, exec .decStart s = .next { s with decLevel := .high, response := some { status := .ok } }

/-- R72, R73: ENC.BIT emits `10` and sets Low when the bit equals the level, else emits `01` and sets High; nothing
else changes but the response. -/
def Obligations.EncBitFollowsTruthTable : Prop :=
  ∀ (s : State) (b : Bit),
    (b = s.encLevel.toBit →
      exec (.encBit b) s = .next { s with encLevel := .low, response := some { sym := some 0b10#2 } }) ∧
    (b ≠ s.encLevel.toBit →
      exec (.encBit b) s = .next { s with encLevel := .high, response := some { sym := some 0b01#2 } })

/-- 43_laws.md section 2, the closed form's consequence (the spec marks it derived): a run of 0 bits repeats one
symbol and leaves the level as it was; a run of 1 bits alternates the two symbols and toggles the level each time. -/
def Obligations.EncBitRunsRepeatOrAlternate : Prop :=
  ∀ (s : State) (n : Nat),
    (∃ t, runOps (List.replicate n (.encBit false)) s =
        some (t, List.replicate n (some { sym := some (if s.encLevel = .low then 0b10#2 else 0b01#2) })) ∧
      t.encLevel = s.encLevel) ∧
    (∃ t, runOps (List.replicate n (.encBit true)) s =
        some (t, (List.range n).map fun k =>
          some { sym := some (if s.encLevel.toBit = (k % 2 == 0) then 0b10#2 else 0b01#2) }) ∧
      t.encLevel = if n % 2 = 0 then s.encLevel else s.encLevel.flip)

/-- R74: DEC.SYM of `10` delivers the level before and sets Low; of `01` delivers its complement and sets High;
nothing else changes but the response. `DecBit` itself has no value for `00` and `11`. -/
def Obligations.DecSymFollowsTruthTable : Prop :=
  (∀ s : State,
    exec (.decSym 0b10#2) s =
      .next { s with decLevel := .low, response := some { bit := some s.decLevel.toBit } } ∧
    exec (.decSym 0b01#2) s =
      .next { s with decLevel := .high, response := some { bit := some !s.decLevel.toBit } }) ∧
  ∀ l : Level, decBit 0b00#2 l = .error .symbolOutsideDomain ∧ decBit 0b11#2 l = .error .symbolOutsideDomain

/-- R75's error (the strict policy is the spec's decision D2): DEC.SYM of `00` or `11` ends with InvalidSymbolError,
code 0b11, `ok` false, no bit, and changes nothing else. -/
def Obligations.DecSymRejectsInvalidSymbols : Prop :=
  ∀ (s : State) (x : Symbol), x = 0b00#2 ∨ x = 0b11#2 → ∃ r : Response,
    exec (.decSym x) s = .next { s with response := some r } ∧ r.ok = false ∧ r.status.code = 0b11#2 ∧
      r.dataResults = 0

/-- R105: from equal levels DEC.SYM of the symbol ENC.BIT emits returns the bit and ends at the encoder's level. So
any stream ENC.BIT emits, symbol after symbol, is decoded to its bits, and the levels end equal. From the level the
encoder has left, instead, DEC.SYM of that symbol returns 0 whatever the bit was. -/
def Obligations.BitRoundTripFromEqualLevels : Prop :=
  (∀ (s : State) (b : Bit), s.encLevel = s.decLevel → ∃ t x u,
    exec (.encBit b) s = .next t ∧ t.readSym = .ok x ∧ exec (.decSym x) t = .next u ∧ u.readBit = .ok b ∧
      u.encLevel = t.encLevel ∧ u.decLevel = t.encLevel) ∧
  (∀ (bs : List Bit) (s : State), s.encLevel = s.decLevel → ∃ (t u : State) (xs : List Symbol),
    xs.length = bs.length ∧
    runOps (bs.map .encBit) s = some (t, xs.map fun x => some { sym := some x }) ∧
    runOps (xs.map .decSym) t = some (u, bs.map fun b => some { bit := some b }) ∧
    u.encLevel = t.encLevel ∧ u.decLevel = t.encLevel) ∧
  ∀ (s : State) (b : Bit), ∃ t x u,
    exec (.encBit b) s = .next t ∧ t.readSym = .ok x ∧
      exec (.decSym x) (t.setDecLevel t.encLevel) = .next u ∧ u.readBit = .ok false

/-! ### The byte coder -/

/-- R80: ENC.BYTE applies `EncBit` to bits 0 to 7 of the byte, each with the level the one before left, and puts
symbol `i` in slot `(8 + 2i) mod 16`; nothing but the level and the response changes. -/
def Obligations.EncBytePlacesTheEightSymbols : Prop :=
  ∀ (s : State) (d : Byte), ∃ (q : CodeUnit) (lev : Nat → Level),
    lev 0 = s.encLevel ∧
    (∀ i, i < 8 → slotSymbol q ((8 + 2 * i) % 16) = (encBit (d.getLsbD i) (lev i)).1 ∧
      lev (i + 1) = (encBit (d.getLsbD i) (lev i)).2) ∧
    exec (.encByte d) s = .next { s with encLevel := lev 8, response := some { q := some q } }

/-- 41_byte_coder.md section 1, the bit-by-bit form (derived in the spec): the odd bits of the unit are the running
parities of the raw bits XOR the level before, the even bit below each its complement; the level after is the level
before XOR the parity of the byte. -/
def Obligations.EncByteBitsAreRunningParities : Prop :=
  ∀ (s : State) (d : Byte), ∃ q : CodeUnit,
    exec (.encByte d) s =
      .next { s with encLevel := .ofBit (s.encLevel.toBit ^^ parity d), response := some { q := some q } } ∧
    (∀ i, i < 4 → q.getLsbD (8 + 2 * i) = !runningParity s.encLevel.toBit d (i + 1) ∧
      q.getLsbD (9 + 2 * i) = runningParity s.encLevel.toBit d (i + 1)) ∧
    (∀ i, 4 ≤ i → i < 8 → q.getLsbD (2 * (i - 4)) = !runningParity s.encLevel.toBit d (i + 1) ∧
      q.getLsbD (2 * (i - 4) + 1) = runningParity s.encLevel.toBit d (i + 1))

/-- 41_byte_coder.md section 1, the split by nibbles (derived in the spec): the unit's high byte is `NibEnc` of the
low nibble from the level before, its low byte `NibEnc` of the high nibble from the level that leaves. -/
def Obligations.EncByteSplitsByNibble : Prop :=
  ∀ (s : State) (d : Byte),
    exec (.encByte d) s = .next { s with
      encLevel := (nibEnc (d.extractLsb' 4 4) (nibEnc (d.extractLsb' 0 4) s.encLevel).2).2
      response := some { q := some ((nibEnc (d.extractLsb' 0 4) s.encLevel).1 ++
        (nibEnc (d.extractLsb' 4 4) (nibEnc (d.extractLsb' 0 4) s.encLevel).2).1) } }

/-- 43_laws.md section 3, layering (derived in the spec): ENC.BYTE leaves the level that the eight ENC.BIT of the
byte's bits 0 to 7 leave, and its unit holds their eight symbols in the slots 8,10,12,14,0,2,4,6. -/
def Obligations.EncByteIsEightEncBits : Prop :=
  ∀ (s : State) (d : Byte), ∃ (t u : State) (q : CodeUnit) (xs : List Symbol),
    exec (.encByte d) s = .next t ∧ t.readQ = .ok q ∧ xs.length = 8 ∧
    runOps ((List.range 8).map fun i => .encBit (d.getLsbD i)) s = some (u, xs.map fun x => some { sym := some x }) ∧
    t.encLevel = u.encLevel ∧ xs = Config.slotOrder.map (slotSymbol q)

/-- 43_laws.md section 3, the complement law (derived in the spec): from the other level ENC.BYTE gives the complement
of the unit and of the level after, and ENC.BIT the complement of the symbol and of the level after. -/
def Obligations.OtherLevelComplementsTheCode : Prop :=
  ∀ (s : State) (d : Byte) (b : Bit), ∃ (q : CodeUnit) (l : Level) (x : Symbol) (k : Level),
    exec (.encByte d) s = .next { s with encLevel := l, response := some { q := some q } } ∧
    exec (.encByte d) (s.setEncLevel s.encLevel.flip) =
      .next { s with encLevel := l.flip, response := some { q := some (~~~q) } } ∧
    exec (.encBit b) s = .next { s with encLevel := k, response := some { sym := some x } } ∧
    exec (.encBit b) (s.setEncLevel s.encLevel.flip) =
      .next { s with encLevel := k.flip, response := some { sym := some (~~~x) } }

/-- R104: every symbol ENC.BIT returns is `10` or `01`, every unit ENC.BYTE returns is valid, and so is every stored
unit that an ENCODE that succeeds has written. -/
def Obligations.EncoderEmitsOnlyValidSymbols : Prop :=
  (∀ (s : State) (b : Bit), ∃ t x, exec (.encBit b) s = .next t ∧ t.readSym = .ok x ∧
    (x = 0b01#2 ∨ x = 0b10#2)) ∧
  (∀ (s : State) (d : Byte), ∃ t q, exec (.encByte d) s = .next t ∧ t.readQ = .ok q ∧ unitValid q = true) ∧
  ∀ (s : State) (l : Launch), s.mem.wf → l.truthful = true → l.disjoint = true → 2 * l.inputLen ≤ l.outputCapacity →
    ∃ t, exec (.encodeBuf l) s = .next t ∧ t.readOk = .ok true ∧
      ∀ u ∈ loadUnits (t.mem.readBytes l.out.base (2 * l.inputLen)), unitValid u = true

/-- 30_encoding.md section 4, the validity of a unit as one expression (derived in the spec), and in terms of its
symbols: every one of its eight slots holds `10` or `01`. -/
def Obligations.UnitValidAsOneExpression : Prop :=
  ∀ u : CodeUnit,
    (unitValid u = true ↔ (u ^^^ (u >>> 1)) &&& 0x5555#16 = 0x5555#16) ∧
    (unitValid u = true ↔ ∀ p ∈ Config.slotOrder, symbolValid (slotSymbol u p) = true)

/-- 95_test_vectors.md V10 (derived in the spec): changing any one bit of a valid unit makes it invalid, and DEC.UNIT
of the changed unit ends with InvalidSymbolError and changes nothing else. -/
def Obligations.SingleBitErrorIsDetected : Prop :=
  ∀ (s : State) (u : CodeUnit) (p : Nat), unitValid u = true → p < 16 →
    exec (.decUnit (u ^^^ (1#16 <<< p))) s = .next { s with response := some { status := .invalidSymbolError } }

/-- R83 and R84's success: DEC.UNIT of a valid unit delivers the byte whose bit `k` is `DecBit` of slot `(8 + 2k) mod
16` at the level the symbol before left, and leaves the level after the eighth; nothing else changes but the response.
-/
def Obligations.DecUnitDecodesTheEightSlots : Prop :=
  ∀ (s : State) (u : CodeUnit), unitValid u = true → ∃ (r : Byte) (lev : Nat → Level),
    lev 0 = s.decLevel ∧
    (∀ k, k < 8 → decBit (slotSymbol u ((8 + 2 * k) % 16)) (lev k) = .ok (r.getLsbD k, lev (k + 1))) ∧
    exec (.decUnit u) s = .next { s with decLevel := lev 8, response := some { r := some r } }

/-- 41_byte_coder.md section 2 (DEC.UNIT's corner cases): after a successful DEC.UNIT the level is `u[7]` whatever it
was before, and bit `k` of the byte is the XOR of the second half-bits of slots `k` and `k - 1`, the level before
standing for slot -1 (from the closed form of 43_laws.md section 2, derived in the spec). -/
def Obligations.DecUnitBitsAreHalfBitDifferences : Prop :=
  ∀ (s : State) (u : CodeUnit), unitValid u = true → ∃ r : Byte,
    exec (.decUnit u) s = .next { s with decLevel := .ofBit (u.getLsbD 7), response := some { r := some r } } ∧
    r.getLsbD 0 = (s.decLevel.toBit ^^ u.getLsbD 9) ∧
    (∀ k, 1 ≤ k → k < 4 → r.getLsbD k = (u.getLsbD (7 + 2 * k) ^^ u.getLsbD (9 + 2 * k))) ∧
    r.getLsbD 4 = (u.getLsbD 15 ^^ u.getLsbD 1) ∧
    ∀ k, 5 ≤ k → k < 8 → r.getLsbD k = (u.getLsbD (2 * k - 9) ^^ u.getLsbD (2 * k - 7))

/-- R84's error (decisions D2, D4): DEC.UNIT of a unit with `00` or `11` in any slot ends with InvalidSymbolError, no
byte, and changes nothing else. -/
def Obligations.DecUnitRejectsInvalidUnits : Prop :=
  ∀ (s : State) (u : CodeUnit) (p : Nat), p ∈ Config.slotOrder → u.getLsbD p = u.getLsbD (p + 1) →
    exec (.decUnit u) s = .next { s with response := some { status := .invalidSymbolError } }

/-- 43_laws.md section 3, layering (derived in the spec): DEC.UNIT of a valid unit equals DEC.SYM of its slots
8,10,12,14,0,2,4,6 in that order, the bits collected at positions 0 to 7. -/
def Obligations.DecUnitIsEightDecSyms : Prop :=
  ∀ (s : State) (u : CodeUnit), unitValid u = true → ∃ (t v : State) (r : Byte),
    exec (.decUnit u) s = .next t ∧ t.readR = .ok r ∧
    runOps (Config.slotOrder.map fun p => .decSym (slotSymbol u p)) s =
      some (v, (List.range 8).map fun k => some { bit := some (r.getLsbD k) }) ∧
    v.decLevel = t.decLevel

/-- 43_laws.md section 3 (derived in the spec): from equal levels DEC.UNIT of the unit ENC.BYTE returns gives the byte
back and leaves the two levels equal; and ENC.BYTE of the byte DEC.UNIT returns for a valid unit gives that unit back.
-/
def Obligations.ByteRoundTripBothWays : Prop :=
  (∀ (s : State) (d : Byte), s.encLevel = s.decLevel → ∃ t q u,
    exec (.encByte d) s = .next t ∧ t.readQ = .ok q ∧ exec (.decUnit q) t = .next u ∧ u.readR = .ok d ∧
      u.decLevel = u.encLevel ∧ u.encLevel = t.encLevel) ∧
  ∀ (s : State) (u : CodeUnit), s.encLevel = s.decLevel → unitValid u = true → ∃ t r v,
    exec (.decUnit u) s = .next t ∧ t.readR = .ok r ∧ exec (.encByte r) t = .next v ∧ v.readQ = .ok u ∧
      v.encLevel = v.decLevel

/-- 43_laws.md section 3 (derived in the spec): from either level, each valid unit is the code of exactly one byte. -/
def Obligations.EachValidUnitCodesOneByte : Prop :=
  ∀ (l : Level) (u : CodeUnit), unitValid u = true → ∃! d : Byte, (encByte d l).1 = u

/-- 43_laws.md section 2, self-synchronisation (derived in the spec): a wrong level before changes only bit 0 of the
decoded byte, and the level after is the same. -/
def Obligations.WrongLevelSpoilsOnlyBitZero : Prop :=
  ∀ (s : State) (u : CodeUnit), unitValid u = true → ∃ (r : Byte) (l : Level),
    exec (.decUnit u) s = .next { s with decLevel := l, response := some { r := some r } } ∧
    exec (.decUnit u) (s.setDecLevel s.decLevel.flip) =
      .next { s with decLevel := l, response := some { r := some (r ^^^ 0x01#8) } }

/-- R76, R87 (the policy this hardware does not take): the permissive DEC.UNIT never errs; it decodes a unit as the
strict one decodes it with `01` in every slot that held `00` or `11`, so on valid units the two agree. The permissive
DEC.SYM of `00` or `11` is the strict one of `01`. -/
def Obligations.PermissiveDecoderReadsInvalidAs01 : Prop :=
  (∀ (s : State) (u : CodeUnit), ∃ (r : Byte) (l : Level),
    decUnitUnder .permissive u s = .next { s with decLevel := l, response := some { r := some r } } ∧
    exec (.decUnit (asIf01 u 8)) s = .next { s with decLevel := l, response := some { r := some r } }) ∧
  (∀ u : CodeUnit, unitValid u = true → asIf01 u 8 = u) ∧
  ∀ (s : State) (x : Symbol),
    decSymUnder .permissive x s = exec (.decSym (if symbolValid x then x else 0b01#2)) s

/-! ### The buffer coder -/

/-- R90: with truthful lengths and disjoint buffers ENCODE ends with CapacityError and nothing else changed exactly
when `2 * input_len > output_capacity`; otherwise it ends `ok`, the units of the input bytes, coded from High, stored
high byte first from the output's offset 0, and the encoder's level High XOR the parity of all input bits. -/
def Obligations.EncodeFollowsItsRule : Prop :=
  ∀ (s : State) (l : Launch), l.truthful = true → l.disjoint = true →
    exec (.encodeBuf l) s =
      if l.inputLen * 2 > l.outputCapacity then .next { s with response := some { status := .capacityError } }
      else .next { s with
        encLevel := .ofBit (true ^^ parityOf (s.mem.readBytes l.inp.base l.inputLen))
        mem := s.mem.writeBytes l.out.base (enc (s.mem.readBytes l.inp.base l.inputLen))
        response := some { status := .ok } }

/-- R34, R39, R45: after a successful ENCODE, byte `2k` of the output reads as the high byte and byte `2k + 1` as the
low byte of the unit of input byte `k`, the level carried from each byte to the next from High; and every address
outside the `2 * input_len` bytes from the output's offset 0 reads as before, the input and the output's tail among
them. -/
def Obligations.EncodeStoresUnitsAndNothingElse : Prop :=
  ∀ (s : State) (l : Launch), s.mem.wf → l.truthful = true → l.disjoint = true → l.inputLen * 2 ≤ l.outputCapacity →
    ∃ (t : State) (lev : Nat → Level), exec (.encodeBuf l) s = .next t ∧ lev 0 = .high ∧
      (∀ k, k < l.inputLen →
        lev (k + 1) = (encByte (s.mem.read (l.inp.base + k)) (lev k)).2 ∧
        t.mem.read (l.out.base + 2 * k) = highByte (encByte (s.mem.read (l.inp.base + k)) (lev k)).1 ∧
        t.mem.read (l.out.base + 2 * k + 1) = lowByte (encByte (s.mem.read (l.inp.base + k)) (lev k)).1) ∧
      t.encLevel = lev l.inputLen ∧
      ∀ a, outsideRegion l.out.base (2 * l.inputLen) a → t.mem.read a = s.mem.read a

/-- R125 with R91's checks (the added checks and their order are the spec's decisions D2 to D5): with truthful lengths
and disjoint buffers DECODE reports the first that applies of CapacityError, LengthError, InvalidSymbolError, and then
changes nothing else. -/
def Obligations.DecodeReportsTheFirstError : Prop :=
  ∀ (s : State) (l : Launch), l.truthful = true → l.disjoint = true →
    (l.outputCapacity * 2 < l.inputLen →
      exec (.decodeBuf l) s = .next { s with response := some { status := .capacityError } }) ∧
    (l.inputLen ≤ l.outputCapacity * 2 → l.inputLen % 2 = 1 →
      exec (.decodeBuf l) s = .next { s with response := some { status := .lengthError } }) ∧
    (l.inputLen ≤ l.outputCapacity * 2 → l.inputLen % 2 = 0 →
      (∃ u ∈ loadUnits (s.mem.readBytes l.inp.base l.inputLen), unitValid u = false) →
      exec (.decodeBuf l) s = .next { s with response := some { status := .invalidSymbolError } })

/-- R91's success (its three checks are decisions D2 to D5 in part): with truthful lengths, disjoint buffers, enough
capacity, even length and valid units, DECODE ends `ok`, the decoded bytes stored from the output's offset 0, and the
decoder's level bit 7 of the last input byte, or High when there is none; nothing else changes. -/
def Obligations.DecodeWritesTheDecodedBytes : Prop :=
  ∀ (s : State) (l : Launch), l.truthful = true → l.disjoint = true → l.inputLen ≤ l.outputCapacity * 2 →
    l.inputLen % 2 = 0 → (∀ u ∈ loadUnits (s.mem.readBytes l.inp.base l.inputLen), unitValid u = true) →
    ∃ rs, dec (s.mem.readBytes l.inp.base l.inputLen) = .ok rs ∧ rs.length = l.inputLen / 2 ∧
      exec (.decodeBuf l) s = .next { s with
        decLevel := if l.inputLen = 0 then .high
          else .ofBit ((s.mem.read (l.inp.base + (l.inputLen - 1))).getLsbD 7)
        mem := s.mem.writeBytes l.out.base rs
        response := some { status := .ok } }

/-- R35, R39, R45: after a successful DECODE byte `k` of the output is the decoded unit of input bytes `2k` (its high
byte) and `2k + 1`, the level carried from unit to unit from High; and every address outside the `input_len / 2` bytes
from the output's offset 0 reads as before. -/
def Obligations.DecodeStoresBytesAndNothingElse : Prop :=
  ∀ (s : State) (l : Launch), s.mem.wf → l.truthful = true → l.disjoint = true → l.inputLen ≤ l.outputCapacity * 2 →
    l.inputLen % 2 = 0 → (∀ u ∈ loadUnits (s.mem.readBytes l.inp.base l.inputLen), unitValid u = true) →
    ∃ (t : State) (lev : Nat → Level), exec (.decodeBuf l) s = .next t ∧ lev 0 = .high ∧
      (∀ k, k < l.inputLen / 2 →
        decByteUnder .strict
            (s.mem.read (l.inp.base + 2 * k) ++ s.mem.read (l.inp.base + 2 * k + 1)) (lev k) =
          .ok (t.mem.read (l.out.base + k), lev (k + 1))) ∧
      t.decLevel = lev (l.inputLen / 2) ∧
      ∀ a, outsideRegion l.out.base (l.inputLen / 2) a → t.mem.read a = s.mem.read a

/-- R42, R150 (what is refused is the spec's decision D12 and its treatment of U3; the order of the two tests is this
model's, log entry 9): ENCODE and DECODE refuse a launch exactly when a length exceeds its buffer's real size or the
two buffers share an address. -/
def Obligations.BufferLaunchesRefusedExactly : Prop :=
  ∀ (s : State) (l : Launch) (i : Instr), i = .encodeBuf l ∨ i = .decodeBuf l →
    (l.inp.size < l.inputLen ∨ l.out.size < l.outputCapacity → exec i s = .refused .untruthfulLength) ∧
    (l.inputLen ≤ l.inp.size → l.outputCapacity ≤ l.out.size →
      ((∃ a, l.inp.base ≤ a ∧ a < l.inp.base + l.inputLen ∧ l.out.base ≤ a ∧ a < l.out.base + l.outputCapacity) ↔
        exec i s = .refused .overlappingBuffers)) ∧
    ((∃ t, exec i s = .next t) ↔ l.truthful = true ∧ l.disjoint = true)

/-- R94 (the policy this hardware does not take): with truthful lengths, disjoint buffers, enough capacity and even
length the permissive DECODE ends `ok` whatever the input holds, with the bytes the permissive byte decoder gives; on
valid units it is the strict one. An odd length stays LengthError. -/
def Obligations.PermissiveDecodeTakesAnyUnits : Prop :=
  ∀ (s : State) (l : Launch), l.truthful = true → l.disjoint = true → l.inputLen ≤ l.outputCapacity * 2 →
    (l.inputLen % 2 = 0 → ∃ rs lev,
      decodeUnits .permissive .high (loadUnits (s.mem.readBytes l.inp.base l.inputLen)) = .ok (rs, lev) ∧
      decodeBufUnder .permissive l s = .next { s with
        decLevel := lev, mem := s.mem.writeBytes l.out.base rs, response := some { status := .ok } } ∧
      ((∀ u ∈ loadUnits (s.mem.readBytes l.inp.base l.inputLen), unitValid u = true) →
        exec (.decodeBuf l) s = decodeBufUnder .permissive l s)) ∧
    (l.inputLen % 2 = 1 →
      decodeBufUnder .permissive l s = .next { s with response := some { status := .lengthError } })

/-- R103: with truthful lengths and disjoint buffers, ENCODE of `n` bytes with capacity `cap < 2n`, and DECODE with `2
* cap < n`, end with `ok` false and leave memory untouched; DECODE's test is `cap < n / 2` for even `n` and `cap < (n
+ 1) / 2` for odd `n`. -/
def Obligations.TooSmallCapacityIsRejected : Prop :=
  ∀ (s : State) (l : Launch), l.truthful = true → l.disjoint = true →
    (l.outputCapacity < 2 * l.inputLen →
      ∃ t, exec (.encodeBuf l) s = .next t ∧ t.readOk = .ok false ∧ t.mem = s.mem) ∧
    (2 * l.outputCapacity < l.inputLen →
      ∃ t, exec (.decodeBuf l) s = .next t ∧ t.readOk = .ok false ∧ t.mem = s.mem) ∧
    (l.inputLen % 2 = 0 → (2 * l.outputCapacity < l.inputLen ↔ l.outputCapacity < l.inputLen / 2)) ∧
    (l.inputLen % 2 = 1 → (2 * l.outputCapacity < l.inputLen ↔ l.outputCapacity < (l.inputLen + 1) / 2))

/-- R100: what ENCODE writes from a buffer `A` into `B`, DECODE of `B` into `C` gives back: the same bytes, both
operations ending `ok`, for every length and every content of memory. The buffers are truthful and `C` overlaps
neither `B`, nor `B` `A`; `C` may be `A`. -/
def Obligations.BufferRoundTrip : Prop :=
  ∀ (s : State) (a b c : Handle) (n capB capC : Nat), s.mem.wf → n ≤ a.size → capB ≤ b.size → capC ≤ c.size →
    2 * n ≤ capB → n ≤ capC → (⟨a, n, b, capB⟩ : Launch).disjoint = true →
    (⟨b, 2 * n, c, capC⟩ : Launch).disjoint = true → ∃ t u,
      exec (.encodeBuf ⟨a, n, b, capB⟩) s = .next t ∧ t.readOk = .ok true ∧
      exec (.decodeBuf ⟨b, 2 * n, c, capC⟩) t = .next u ∧ u.readOk = .ok true ∧
      u.mem.readBytes c.base n = s.mem.readBytes a.base n

/-- R100 on byte sequences (the converse is derived in the spec): decoding the code of any byte sequence gives it
back, and encoding what an even-length sequence of valid units decodes to gives that sequence back. -/
def Obligations.SequenceRoundTripBothWays : Prop :=
  (∀ ds : List Byte, dec (enc ds) = .ok ds) ∧
  ∀ es : List Byte, es.length % 2 = 0 → (∀ u ∈ loadUnits es, unitValid u = true) →
    ∃ ds, dec es = .ok ds ∧ enc ds = es

/-- R101: the code of `n` bytes has `2n` bytes, and what `m` bytes of valid units decode to has `m / 2`. -/
def Obligations.EncodeDoublesAndDecodeHalves : Prop :=
  (∀ ds : List Byte, (enc ds).length = 2 * ds.length) ∧
  ∀ es : List Byte, es.length % 2 = 0 → (∀ u ∈ loadUnits es, unitValid u = true) →
    ∃ ds, dec es = .ok ds ∧ ds.length = es.length / 2

/-- R102: the results of ENCODE and DECODE do not depend on the levels before, the last response or the host's other
requests: from two states with the same memory both give the same response and the same memory, and on success the
same level of their half. -/
def Obligations.BufferResultsIgnoreHistory : Prop :=
  ∀ (s s' : State) (l : Launch), s.mem = s'.mem → l.truthful = true → l.disjoint = true →
    (∃ t t', exec (.encodeBuf l) s = .next t ∧ exec (.encodeBuf l) s' = .next t' ∧
      t.response = t'.response ∧ t.mem = t'.mem ∧ (t.readOk = .ok true → t.encLevel = t'.encLevel)) ∧
    (∃ t t', exec (.decodeBuf l) s = .next t ∧ exec (.decodeBuf l) s' = .next t' ∧
      t.response = t'.response ∧ t.mem = t'.mem ∧ (t.readOk = .ok true → t.decLevel = t'.decLevel))

/-- R102: the results of ENCODE and DECODE are functions of the input bytes, `input_len` and `output_capacity` alone:
two launches, of buffers anywhere in two memories and after whatever operations, whose inputs hold the same bytes give
the same response and on success the same output bytes and the same level. The results of the other six are functions
of their operand and the level register of their half. -/
def Obligations.ResultsAreFunctionsOfOperands : Prop :=
  (∀ (s s' : State) (l l' : Launch), s.mem.wf → s'.mem.wf → l.truthful = true → l.disjoint = true →
    l'.truthful = true → l'.disjoint = true → l.inputLen = l'.inputLen → l.outputCapacity = l'.outputCapacity →
    s.mem.readBytes l.inp.base l.inputLen = s'.mem.readBytes l'.inp.base l'.inputLen →
    (∃ t t', exec (.encodeBuf l) s = .next t ∧ exec (.encodeBuf l') s' = .next t' ∧ t.response = t'.response ∧
      (t.readOk = .ok true → t.encLevel = t'.encLevel ∧
        t.mem.readBytes l.out.base (2 * l.inputLen) = t'.mem.readBytes l'.out.base (2 * l.inputLen))) ∧
    (∃ t t', exec (.decodeBuf l) s = .next t ∧ exec (.decodeBuf l') s' = .next t' ∧ t.response = t'.response ∧
      (t.readOk = .ok true → t.decLevel = t'.decLevel ∧
        t.mem.readBytes l.out.base (l.inputLen / 2) = t'.mem.readBytes l'.out.base (l.inputLen / 2)))) ∧
  ∀ (i : Instr) (s s' : State), launchOf i = none →
    (isEncoderOp i = true → s.encLevel = s'.encLevel) → (isEncoderOp i = false → s.decLevel = s'.decLevel) →
    ∃ t t', exec i s = .next t ∧ exec i s' = .next t' ∧ t.response = t'.response ∧
      (isEncoderOp i = true → t.encLevel = t'.encLevel) ∧ (isEncoderOp i = false → t.decLevel = t'.decLevel)

/-- 43_laws.md section 3, layering (derived in the spec): ENCODE with enough capacity has the effect of ENC.START and
one ENC.BYTE per input byte, each unit stored high byte first. -/
def Obligations.EncodeIsStartThenBytes : Prop :=
  ∀ (s : State) (l : Launch), l.truthful = true → l.disjoint = true → l.inputLen * 2 ≤ l.outputCapacity →
    ∃ (t u : State) (qs : List CodeUnit),
      exec (.encodeBuf l) s = .next t ∧
      runOps (.encStart :: (s.mem.readBytes l.inp.base l.inputLen).map .encByte) s =
        some (u, some {} :: qs.map fun q => some { q := some q }) ∧
      t.encLevel = u.encLevel ∧ t.mem = s.mem.writeBytes l.out.base (storeUnits qs)

/-- 43_laws.md section 3, layering (derived in the spec): DECODE that passes its checks equals DEC.START and one
DEC.UNIT per stored unit, the bytes stored in order. -/
def Obligations.DecodeIsStartThenUnits : Prop :=
  ∀ (s : State) (l : Launch), l.truthful = true → l.disjoint = true → l.inputLen ≤ l.outputCapacity * 2 →
    l.inputLen % 2 = 0 → (∀ u ∈ loadUnits (s.mem.readBytes l.inp.base l.inputLen), unitValid u = true) →
    ∃ (t v : State) (rs : List Byte),
      exec (.decodeBuf l) s = .next t ∧
      runOps (.decStart :: (loadUnits (s.mem.readBytes l.inp.base l.inputLen)).map .decUnit) s =
        some (v, some {} :: rs.map fun r => some { r := some r }) ∧
      t.decLevel = v.decLevel ∧ t.mem = s.mem.writeBytes l.out.base rs

/-- 43_laws.md section 3, concatenation (derived in the spec): the code of `A ++ B` is the code of `A` followed by the
code of `B`, complemented when `A` has an odd number of 1 bits. -/
def Obligations.ConcatenationComplementsAfterOddParity : Prop :=
  ∀ as bs : List Byte, enc (as ++ bs) =
    enc as ++ if parityOf as then (enc bs).map (fun b => ~~~b) else enc bs

/-- 70_reset_and_hazards.md section 3, joining (derived in the spec): the codes of `A` and `B` joined decode to `A ++
B` but for bit 0 of the first byte of `B`, which is wrong exactly when `A` has odd parity. -/
def Obligations.JoinedCodesSpoilOneBit : Prop :=
  ∀ (as bs : List Byte) (b : Byte), dec (enc as ++ enc (b :: bs)) =
    .ok (as ++ (if parityOf as then b ^^^ 0x01#8 else b) :: bs)

/-- 70_reset_and_hazards.md section 2 (derived in the spec): an even-length beginning of a code decodes to the
matching beginning of the input. -/
def Obligations.EvenBeginningDecodesToBeginning : Prop :=
  ∀ (ds : List Byte) (k : Nat), dec ((enc ds).take (2 * k)) = .ok (ds.take k)

/-- 70_reset_and_hazards.md section 3, loss of the unit boundary (derived in the spec): a code decoded from its second
byte on gives no error; byte `j` is `{a_(j+1)[3:0], a_j[7:4]}`, except that bit 0 of byte 0 is complemented when the
level before the high nibble of `a_0` was Low, that is when its low nibble has odd parity. -/
def Obligations.LostUnitBoundaryRegroupsNibbles : Prop :=
  ∀ (a : Byte) (as : List Byte), ∃ rs,
    dec (((enc (a :: as)).drop 1).take (2 * as.length)) = .ok rs ∧ rs.length = as.length ∧
    ∀ j, j < as.length → ∃ x y : Byte, (a :: as)[j]? = some x ∧ as[j]? = some y ∧
      rs[j]? = some (if j = 0 ∧ runningParity false a 4 = true then regroup x y ^^^ 0x01#8 else regroup x y)

/-- 30_encoding.md section 1 (derived in the spec): the half-bits of a code in the order they were produced are its
bytes in order, each read from bit 0 to bit 7. -/
def Obligations.StoredBitsAreHalfBitsInOrder : Prop :=
  ∀ ds : List Byte, bitsOf (enc ds) = halfBits .high (bitsOf ds)

/-- R58: DECODE builds a unit as the input byte at the lower offset followed by the one at the next; no bit of the two
is lost. -/
def Obligations.DecodeBuildsUnitHighByteFirst : Prop :=
  ∀ (la : Launch) (m : Memory) (i : Nat), i + 1 < la.inputLen → ∃ u : CodeUnit, readUnit la m i = .ok u ∧
    u = m.read (la.inp.base + i) ++ m.read (la.inp.base + (i + 1)) ∧
    highByte u = m.read (la.inp.base + i) ∧ lowByte u = m.read (la.inp.base + (i + 1))

/-- 43_laws.md section 4 (exact lengths are the spec's decision D11): on length ports of any width `w` the capacity
checks formed on `w + 1` bits are the exact ones. -/
def Obligations.PortWidthChecksAreExact : Prop :=
  ∀ (w : Nat) (n c : BitVec w) (i o : Handle),
    encodeTooSmallPorts w n c = encodeTooSmall ⟨i, n.toNat, o, c.toNat⟩ ∧
    decodeTooSmallPorts w n c = decodeTooSmall ⟨i, n.toNat, o, c.toNat⟩

/-! ### All operations -/

/-- R120: `ok` is true exactly when the status is OK, code 0b00; the four operations ENC.START, DEC.START, ENC.BIT and
ENC.BYTE can only end with OK; every operation that ends answers a response, and no data result beside an error (D15,
U6). -/
def Obligations.EveryOperationAnswersItsStatus : Prop :=
  ∀ (i : Instr) (s t : State), exec i s = .next t → ∃ r, t.response = some r ∧
    (r.ok = true ↔ r.status = .ok) ∧ (r.ok = true ↔ r.status.code = 0b00#2) ∧
    (r.ok = false → r.dataResults = 0) ∧ r.dataResults ≤ 1 ∧
    (i = .encStart ∨ i = .decStart ∨ (∃ b, i = .encBit b) ∨ (∃ d, i = .encByte d) → r.ok = true) ∧
    (r.status = .lengthError → ∃ l, i = .decodeBuf l) ∧
    (r.status = .capacityError → ∃ l, i = .encodeBuf l ∨ i = .decodeBuf l)

/-- R126 (for the two added errors the spec's decision D4): an operation that ends with a status other than OK has
changed nothing but the response. -/
def Obligations.ErrorsChangeNothing : Prop :=
  ∀ (i : Instr) (s t : State), exec i s = .next t → t.readOk = .ok false →
    t.encLevel = s.encLevel ∧ t.decLevel = s.decLevel ∧ t.mem = s.mem ∧ t.requests = s.requests

/-- 60_exceptions.md section 5 (derived in the spec): after an error the next operation is performed exactly as it
would have been had the failed one never been issued. -/
def Obligations.OperationAfterErrorIsUnaffected : Prop :=
  ∀ (i j : Instr) (s t : State), exec i s = .next t → t.readOk = .ok false → exec j t = exec j s

/-- R11, R12 and the access table: an operation of the encoder leaves the decoder's level, one of the decoder the
encoder's; the six operations that are not ENCODE or DECODE leave memory; none touches the host's requests. -/
def Obligations.EachHalfLeavesTheOther : Prop :=
  ∀ (i : Instr) (s t : State), exec i s = .next t →
    (isEncoderOp i = true → t.decLevel = s.decLevel) ∧ (isEncoderOp i = false → t.encLevel = s.encLevel) ∧
    (launchOf i = none → t.mem = s.mem) ∧ t.requests = s.requests

/-- R132 (one operation at a time on each half is the spec's decision D13): an encoder operation and a decoder
operation with disjoint buffers give the same levels, the same memory and the same responses in either order. -/
def Obligations.EncoderAndDecoderCommute : Prop :=
  ∀ (i j : Instr) (s t₁ t₂ : State), s.mem.wf → isEncoderOp i = true → isEncoderOp j = false → buffersApart i j →
    exec i s = .next t₁ → exec j s = .next t₂ → ∃ u₁ u₂,
      exec j t₁ = .next u₁ ∧ exec i t₂ = .next u₂ ∧
      u₁.encLevel = u₂.encLevel ∧ u₁.decLevel = u₂.decLevel ∧ u₁.mem = u₂.mem ∧
      u₁.response = t₂.response ∧ u₂.response = t₁.response

/-- D15, U6, R20, R24 (the ports and their rule are the spec's decision D15; that the response stands in State, and what
the host's actions and hardware reset do to it, are this model's, log entries 4, 5, 11 and 13): reading a result that
was not delivered is a fault, never a value. Of an operation that ends only the data result its rule names can be read
(`sym` of ENC.BIT, `bit` of DEC.SYM, `q` of ENC.BYTE, `r` of DEC.UNIT), and none when `ok` is false. No result, `ok` and
`status` among them, can be read after a step without a request, after the host has put a request forward or written
its memory, or after hardware reset. And no operation reads a result: taken off the ports, it makes no difference. -/
def Obligations.UndeliveredResultsFault : Prop :=
  (∀ (i : Instr) (s t : State), exec i s = .next t →
    (t.readOk = .ok false ∨ (∀ b, i ≠ .encBit b) → t.readSym = .error .resultHasNoValue) ∧
    (t.readOk = .ok false ∨ (∀ x, i ≠ .decSym x) → t.readBit = .error .resultHasNoValue) ∧
    (t.readOk = .ok false ∨ (∀ d, i ≠ .encByte d) → t.readQ = .error .resultHasNoValue) ∧
    (t.readOk = .ok false ∨ (∀ u, i ≠ .decUnit u) → t.readR = .error .resultHasNoValue)) ∧
  (∀ (s : State) (r : Request) (a : Nat) (v : Byte),
    (∃ t, step (s.setRequests []) = .next t ∧ noResults t) ∧ noResults (s.issue r) ∧ noResults (s.hostWrite a v) ∧
    noResults s.hardReset) ∧
  ∀ (i : Instr) (s : State), exec i s.dropResponse = exec i s
end

