-- ==== Sys2Proof/Laws/State.lean ====
section
/-! SUPPORT. One lemma per field per update of State, and what the two ways of ending an operation do. -/

namespace Sys2Proof.Machine

@[simp] theorem State.setEncLevel_encLevel (s : State) (v : Level) : (s.setEncLevel v).encLevel = v := rfl
@[simp] theorem State.setEncLevel_decLevel (s : State) (v : Level) : (s.setEncLevel v).decLevel = s.decLevel := rfl
@[simp] theorem State.setEncLevel_mem (s : State) (v : Level) : (s.setEncLevel v).mem = s.mem := rfl
@[simp] theorem State.setEncLevel_requests (s : State) (v : Level) : (s.setEncLevel v).requests = s.requests := rfl
@[simp] theorem State.setEncLevel_response (s : State) (v : Level) : (s.setEncLevel v).response = s.response := rfl

@[simp] theorem State.setDecLevel_encLevel (s : State) (v : Level) : (s.setDecLevel v).encLevel = s.encLevel := rfl
@[simp] theorem State.setDecLevel_decLevel (s : State) (v : Level) : (s.setDecLevel v).decLevel = v := rfl
@[simp] theorem State.setDecLevel_mem (s : State) (v : Level) : (s.setDecLevel v).mem = s.mem := rfl
@[simp] theorem State.setDecLevel_requests (s : State) (v : Level) : (s.setDecLevel v).requests = s.requests := rfl
@[simp] theorem State.setDecLevel_response (s : State) (v : Level) : (s.setDecLevel v).response = s.response := rfl

@[simp] theorem State.setMem_encLevel (s : State) (m : Memory) : (s.setMem m).encLevel = s.encLevel := rfl
@[simp] theorem State.setMem_decLevel (s : State) (m : Memory) : (s.setMem m).decLevel = s.decLevel := rfl
@[simp] theorem State.setMem_mem (s : State) (m : Memory) : (s.setMem m).mem = m := rfl
@[simp] theorem State.setMem_requests (s : State) (m : Memory) : (s.setMem m).requests = s.requests := rfl
@[simp] theorem State.setMem_response (s : State) (m : Memory) : (s.setMem m).response = s.response := rfl

@[simp] theorem State.setResponse_encLevel (s : State) (r : Response) : (s.setResponse r).encLevel = s.encLevel := rfl
@[simp] theorem State.setResponse_decLevel (s : State) (r : Response) : (s.setResponse r).decLevel = s.decLevel := rfl
@[simp] theorem State.setResponse_mem (s : State) (r : Response) : (s.setResponse r).mem = s.mem := rfl
@[simp] theorem State.setResponse_requests (s : State) (r : Response) : (s.setResponse r).requests = s.requests := rfl
@[simp] theorem State.setResponse_response (s : State) (r : Response) : (s.setResponse r).response = some r := rfl

@[simp] theorem State.setRequests_encLevel (s : State) (rs : List Request) : (s.setRequests rs).encLevel = s.encLevel := rfl
@[simp] theorem State.setRequests_decLevel (s : State) (rs : List Request) : (s.setRequests rs).decLevel = s.decLevel := rfl
@[simp] theorem State.setRequests_mem (s : State) (rs : List Request) : (s.setRequests rs).mem = s.mem := rfl
@[simp] theorem State.setRequests_requests (s : State) (rs : List Request) : (s.setRequests rs).requests = rs := rfl
@[simp] theorem State.setRequests_response (s : State) (rs : List Request) : (s.setRequests rs).response = s.response := rfl

@[simp] theorem State.dropResponse_encLevel (s : State) : s.dropResponse.encLevel = s.encLevel := rfl
@[simp] theorem State.dropResponse_decLevel (s : State) : s.dropResponse.decLevel = s.decLevel := rfl
@[simp] theorem State.dropResponse_mem (s : State) : s.dropResponse.mem = s.mem := rfl
@[simp] theorem State.dropResponse_requests (s : State) : s.dropResponse.requests = s.requests := rfl
@[simp] theorem State.dropResponse_response (s : State) : s.dropResponse.response = none := rfl
@[simp] theorem State.dropResponse_dropResponse (s : State) : s.dropResponse.dropResponse = s.dropResponse := rfl

@[simp] theorem State.reset_encLevel : State.reset.encLevel = .high := rfl
@[simp] theorem State.reset_decLevel : State.reset.decLevel = .high := rfl
@[simp] theorem State.reset_mem : State.reset.mem = [] := rfl
@[simp] theorem State.reset_requests : State.reset.requests = [] := rfl
@[simp] theorem State.reset_response : State.reset.response = none := rfl

@[simp] theorem State.hardReset_encLevel (s : State) : s.hardReset.encLevel = .high := rfl
@[simp] theorem State.hardReset_decLevel (s : State) : s.hardReset.decLevel = .high := rfl
@[simp] theorem State.hardReset_mem (s : State) : s.hardReset.mem = s.mem := rfl
@[simp] theorem State.hardReset_requests (s : State) : s.hardReset.requests = s.requests := rfl
@[simp] theorem State.hardReset_response (s : State) : s.hardReset.response = none := rfl

@[simp] theorem State.issue_encLevel (s : State) (r : Request) : (s.issue r).encLevel = s.encLevel := rfl
@[simp] theorem State.issue_decLevel (s : State) (r : Request) : (s.issue r).decLevel = s.decLevel := rfl
@[simp] theorem State.issue_mem (s : State) (r : Request) : (s.issue r).mem = s.mem := rfl
@[simp] theorem State.issue_requests (s : State) (r : Request) : (s.issue r).requests = s.requests ++ [r] := rfl
@[simp] theorem State.issue_response (s : State) (r : Request) : (s.issue r).response = none := rfl

@[simp] theorem State.hostWrite_encLevel (s : State) (a : Nat) (v : Byte) : (s.hostWrite a v).encLevel = s.encLevel := rfl
@[simp] theorem State.hostWrite_decLevel (s : State) (a : Nat) (v : Byte) : (s.hostWrite a v).decLevel = s.decLevel := rfl
@[simp] theorem State.hostWrite_mem (s : State) (a : Nat) (v : Byte) : (s.hostWrite a v).mem = s.mem.write a v := rfl
@[simp] theorem State.hostWrite_requests (s : State) (a : Nat) (v : Byte) : (s.hostWrite a v).requests = s.requests := rfl
@[simp] theorem State.hostWrite_response (s : State) (a : Nat) (v : Byte) : (s.hostWrite a v).response = none := rfl

/-- Two states with equal fields are equal. -/
theorem State.ext_fields (s t : State) (h₁ : s.encLevel = t.encLevel) (h₂ : s.decLevel = t.decLevel)
    (h₃ : s.mem = t.mem) (h₄ : s.requests = t.requests) (h₅ : s.response = t.response) : s = t := by
  cases s; cases t; simp_all

@[simp] theorem State.setResponse_dropResponse (s : State) (r : Response) :
    s.dropResponse.setResponse r = s.setResponse r := rfl

@[simp] theorem State.setResponse_setResponse (s : State) (r r' : Response) :
    (s.setResponse r).setResponse r' = s.setResponse r' := rfl

/-- `return` always answers a next state: the response is the one given, all else as given. -/
theorem returnOk_eq_next (r : Response) (s t : State) : returnOk r s = .next t ↔ t = s.setResponse r := by
  simp [returnOk, eq_comm]

/-- `raise` always answers a next state: only the response changes, to the error without data (R126). -/
theorem raiseError_eq_next (e : Status) (s t : State) :
    raiseError e s = .next t ↔ t = s.setResponse { status := e } := by
  simp [raiseError, eq_comm]

@[simp] theorem orFault_ok (α : Type) (a : α) (k : α → Result) : orFault α (.ok a) k = k a := rfl

@[simp] theorem orFault_error (α : Type) (f : Fault) (k : α → Result) : orFault α (.error f) k = .fault f := rfl

end Sys2Proof.Machine
end

