-- ==== Sys2Proof/Laws/Memory.lean ====
section
/-! SUPPORT. Reading after writing, and that writing keeps the canonical form of memory. -/

namespace Sys2Proof.Machine

@[simp] theorem Memory.read_nil (a : Nat) : Memory.read [] a = Memory.unlisted := rfl

theorem Memory.read_cons (c : Host.Cell) (m : Memory) (a : Nat) :
    Memory.read (c :: m) a = if c.1 = a then c.2 else Memory.read m a := rfl

theorem Memory.wf_nil : Memory.wf [] := by simp [Memory.wf]

theorem Memory.wf_cons (c : Host.Cell) (m : Memory) :
    Memory.wf (c :: m) ↔ (∀ d ∈ m, c.1 < d.1) ∧ c.2 ≠ Memory.unlisted ∧ Memory.wf m := by
  simp only [Memory.wf, List.pairwise_cons, List.forall_mem_cons]
  tauto

/-- An address that no entry has reads as an unlisted one. -/
theorem Memory.read_of_forall_ne (m : Memory) (a : Nat) (h : ∀ c ∈ m, c.1 ≠ a) :
    m.read a = Memory.unlisted := by
  induction m with
  | nil => rfl
  | cons c m ih =>
    rw [Memory.read_cons, if_neg (h c (by simp)), ih fun d hd => h d (by simp [hd])]

/-- A write leaves every other address alone. -/
theorem Memory.read_write_other (m : Memory) (a b : Nat) (v : Byte) (h : b ≠ a) :
    (m.write a v).read b = m.read b := by
  induction m with
  | nil => by_cases hv : v = Memory.unlisted <;> simp [Memory.write, hv, Memory.read_cons, h.symm]
  | cons c m ih =>
    simp only [Memory.write]
    split_ifs with h₁ h₂ h₃ h₄ <;>
      simp_all [Memory.read_cons, Ne.symm]

/-- A write puts the value where it says. -/
theorem Memory.read_write_same (m : Memory) (a : Nat) (v : Byte) (hm : m.wf) : (m.write a v).read a = v := by
  induction m with
  | nil => by_cases hv : v = Memory.unlisted <;> simp [Memory.write, hv, Memory.read_cons]
  | cons c m ih =>
    obtain ⟨hlt, -, hwf⟩ := (Memory.wf_cons c m).1 hm
    simp only [Memory.write]
    split_ifs with h₁ h₂ h₃ h₄
    · rw [h₂]
      refine Memory.read_of_forall_ne _ _ fun d hd => ?_
      rcases List.mem_cons.1 hd with rfl | hd
      · omega
      · have := hlt d hd; omega
    · simp [Memory.read_cons]
    · rw [h₄]
      refine Memory.read_of_forall_ne _ _ fun d hd => ?_
      have := hlt d hd; omega
    · simp [Memory.read_cons]
    · rw [Memory.read_cons, if_neg (by omega), ih hwf]

/-- Every entry after a write is the one written or one from before. -/
theorem Memory.mem_write (m : Memory) (a : Nat) (v : Byte) (c : Host.Cell) (h : c ∈ m.write a v) :
    c ∈ m ∨ (c = (a, v) ∧ v ≠ Memory.unlisted) := by
  induction m with
  | nil =>
    by_cases hv : v = Memory.unlisted <;> simp_all [Memory.write]
  | cons d m ih =>
    simp only [Memory.write] at h
    split_ifs at h with h₁ h₂ h₃ h₄ <;> simp_all <;> tauto

/-- A write keeps the canonical form. -/
theorem Memory.write_wf (m : Memory) (a : Nat) (v : Byte) (hm : m.wf) : (m.write a v).wf := by
  induction m with
  | nil => by_cases hv : v = Memory.unlisted <;> simp [Memory.write, hv, Memory.wf]
  | cons c m ih =>
    obtain ⟨hlt, hne, hwf⟩ := (Memory.wf_cons c m).1 hm
    simp only [Memory.write]
    split_ifs with h₁ h₂ h₃ h₄
    · exact hm
    · refine (Memory.wf_cons _ _).2 ⟨fun d hd => ?_, h₂, hm⟩
      rcases List.mem_cons.1 hd with rfl | hd
      · exact h₁
      · have := hlt d hd; show a < d.1; omega
    · exact hwf
    · exact (Memory.wf_cons _ _).2 ⟨fun d hd => by have := hlt d hd; show a < d.1; omega, h₄, hwf⟩
    · refine (Memory.wf_cons _ _).2 ⟨fun d hd => ?_, hne, ih hwf⟩
      rcases Memory.mem_write m a v d hd with hd | ⟨rfl, -⟩
      · exact hlt d hd
      · show c.1 < a; omega

/-- Canonical memories that read alike everywhere are the same list. -/
theorem Memory.ext_of_wf (m n : Memory) (hm : m.wf) (hn : n.wf) (h : ∀ a, m.read a = n.read a) : m = n := by
  induction m generalizing n with
  | nil =>
    cases n with
    | nil => rfl
    | cons d n =>
      obtain ⟨-, hne, -⟩ := (Memory.wf_cons d n).1 hn
      have := h d.1
      simp only [Memory.read_nil, Memory.read_cons, if_true] at this
      exact absurd this.symm hne
  | cons c m ih =>
    obtain ⟨hlt, hne, hwf⟩ := (Memory.wf_cons c m).1 hm
    cases n with
    | nil =>
      have := h c.1
      simp only [Memory.read_nil, Memory.read_cons, if_true] at this
      exact absurd this hne
    | cons d n =>
      obtain ⟨hlt', hne', hwf'⟩ := (Memory.wf_cons d n).1 hn
      have below : ∀ (x : Host.Cell) (k : Memory), (∀ y ∈ k, x.1 < y.1) → ∀ a, a ≤ x.1 →
          Memory.read k a = Memory.unlisted := fun x k hk a ha =>
        Memory.read_of_forall_ne k a fun y hy => by have := hk y hy; omega
      have hc := h c.1
      have hd := h d.1
      simp only [Memory.read_cons, if_true] at hc hd
      have hcd : c.1 = d.1 := by
        rcases Nat.lt_trichotomy c.1 d.1 with hl | he | hl
        · rw [if_neg (by omega), below d n hlt' _ (by omega)] at hc
          exact absurd hc hne
        · exact he
        · rw [if_neg (by omega), below c m hlt _ (by omega)] at hd
          exact absurd hd.symm hne'
      rw [if_pos hcd.symm] at hc
      have hcell : c = d := Prod.ext hcd hc
      subst hcell
      rw [ih n hwf hwf' fun a => ?_]
      have ha := h a
      simp only [Memory.read_cons] at ha
      by_cases hca : c.1 = a
      · rw [below c m hlt _ (by omega), below c n hlt' _ (by omega)]
      · rwa [if_neg hca, if_neg hca] at ha

/-! ### Runs of bytes -/

@[simp] theorem Memory.readBytes_zero (m : Memory) (a : Nat) : m.readBytes a 0 = [] := rfl

theorem Memory.readBytes_succ (m : Memory) (a n : Nat) :
    m.readBytes a (n + 1) = m.read a :: m.readBytes (a + 1) n := rfl

@[simp] theorem Memory.length_readBytes (m : Memory) (a n : Nat) : (m.readBytes a n).length = n := by
  induction n generalizing a with
  | zero => rfl
  | succ n ih => rw [Memory.readBytes_succ, List.length_cons, ih]

theorem Memory.getElem?_readBytes (m : Memory) (a n k : Nat) (h : k < n) :
    (m.readBytes a n)[k]? = some (m.read (a + k)) := by
  induction n generalizing a k with
  | zero => omega
  | succ n ih =>
    cases k with
    | zero => simp [Memory.readBytes_succ]
    | succ k => rw [Memory.readBytes_succ, List.getElem?_cons_succ, ih _ _ (by omega)]; congr 2; omega

/-- Two memories that read alike over a run of addresses give the same bytes. -/
theorem Memory.readBytes_congr (m m' : Memory) (a n : Nat)
    (h : ∀ b, a ≤ b → b < a + n → m.read b = m'.read b) : m.readBytes a n = m'.readBytes a n := by
  induction n generalizing a with
  | zero => rfl
  | succ n ih =>
    rw [Memory.readBytes_succ, Memory.readBytes_succ, h a (by omega) (by omega),
      ih (a + 1) fun b hb hb' => h b (by omega) (by omega)]

@[simp] theorem Memory.writeBytes_nil (m : Memory) (a : Nat) : m.writeBytes a [] = m := rfl

theorem Memory.writeBytes_cons (m : Memory) (a : Nat) (b : Byte) (bs : List Byte) :
    m.writeBytes a (b :: bs) = (m.write a b).writeBytes (a + 1) bs := rfl

/-- Writing a run of bytes keeps the canonical form. -/
theorem Memory.writeBytes_wf (m : Memory) (a : Nat) (bs : List Byte) (hm : m.wf) : (m.writeBytes a bs).wf := by
  induction bs generalizing m a with
  | nil => exact hm
  | cons b bs ih => exact ih _ _ (Memory.write_wf m a b hm)

/-- Outside the run written every address reads as before. -/
theorem Memory.read_writeBytes_outside (m : Memory) (a b : Nat) (bs : List Byte)
    (h : outsideRegion a bs.length b) : (m.writeBytes a bs).read b = m.read b := by
  unfold outsideRegion at h
  induction bs generalizing m a with
  | nil => rfl
  | cons x bs ih =>
    simp only [List.length_cons] at h
    rw [Memory.writeBytes_cons, ih _ _ (by omega), Memory.read_write_other _ _ _ _ (by omega)]

/-- Inside the run written the bytes are the ones written. -/
theorem Memory.readBytes_writeBytes (m : Memory) (a : Nat) (bs : List Byte) (hm : m.wf) :
    (m.writeBytes a bs).readBytes a bs.length = bs := by
  induction bs generalizing m a with
  | nil => rfl
  | cons x bs ih =>
    rw [Memory.writeBytes_cons, List.length_cons, Memory.readBytes_succ, ih _ _ (Memory.write_wf m a x hm),
      Memory.read_writeBytes_outside _ _ _ _ (by unfold outsideRegion; omega), Memory.read_write_same _ _ _ hm]

/-! ### The operations of a launch -/

/-- `MemRead` within the input buffer. -/
theorem memRead_of_lt (l : Launch) (m : Memory) (k : Nat) (h : k < l.inputLen) :
    memRead l m k = .ok (m.read (l.inp.base + k)) := by simp [memRead, h]

/-- `MemWrite` within the output buffer. -/
theorem memWrite_of_lt (l : Launch) (m : Memory) (k : Nat) (v : Byte) (h : k < l.outputCapacity) :
    memWrite l m k v = .ok (m.write (l.out.base + k) v) := by simp [memWrite, h]

/-- Two regions meet exactly when they share an address. -/
theorem regionsMeet_iff (a m b n : Nat) :
    regionsMeet a m b n = true ↔ ∃ x, a ≤ x ∧ x < a + m ∧ b ≤ x ∧ x < b + n := by
  simp only [regionsMeet, Bool.and_eq_true, decide_eq_true_eq]
  constructor
  · rintro ⟨⟨⟨h₁, h₂⟩, h₃⟩, h₄⟩
    exact ⟨max a b, by omega, by omega, by omega, by omega⟩
  · rintro ⟨x, h₁, h₂, h₃, h₄⟩
    omega

theorem regionsMeet_eq_false (a m b n : Nat) (h : regionsMeet a m b n = false) (x y : Nat)
    (hx : a ≤ x ∧ x < a + m) (hy : b ≤ y ∧ y < b + n) : x ≠ y := by
  rintro rfl
  have := (regionsMeet_iff a m b n).2 ⟨x, hx.1, hx.2, hy.1, hy.2⟩
  simp [h] at this

/-- A launch is not refused exactly when its lengths are truthful and its buffers disjoint. -/
theorem launchRefusal_eq_none (l : Launch) :
    launchRefusal l = none ↔ l.truthful = true ∧ l.disjoint = true := by
  simp only [launchRefusal, Launch.truthful, Launch.disjoint, regionsMeet, Bool.or_eq_true, Bool.and_eq_true,
    decide_eq_true_eq]
  split_ifs <;> simp <;> omega

end Sys2Proof.Machine
end

