-- ==== Sys2Proof/Laws/Coder.lean ====
section
/-! SUPPORT. The bit-level formats, and what the bit and byte coders can do, each said once. -/

namespace Sys2Proof

@[simp] theorem Level.ofBit_toBit (l : Level) : Level.ofBit l.toBit = l := by cases l <;> rfl

@[simp] theorem Level.toBit_ofBit (b : Bit) : (Level.ofBit b).toBit = b := by cases b <;> rfl

@[simp] theorem Level.toBit_low : Level.low.toBit = false := rfl

@[simp] theorem Level.toBit_high : Level.high.toBit = true := rfl

@[simp] theorem Level.ofBit_false : Level.ofBit false = .low := rfl

@[simp] theorem Level.ofBit_true : Level.ofBit true = .high := rfl

@[simp] theorem Level.toBit_flip (l : Level) : l.flip.toBit = !l.toBit := by cases l <;> rfl

theorem Level.toBit_inj (l k : Level) : l.toBit = k.toBit ↔ l = k := by cases l <;> cases k <;> simp

end Sys2Proof

namespace Sys2Proof.Machine

/-! ### Bit fields -/

/-- Setting a bit sets that bit and no other. -/
theorem getLsbD_setBit (w : Nat) (v : BitVec w) (p : Nat) (b : Bit) (i : Nat) (hp : p < w) :
    (setBit w v p b).getLsbD i = if i = p then b else v.getLsbD i := by
  by_cases hi : i < w
  · have key : (1#w <<< p).getLsbD i = decide (i = p) := by
      rw [BitVec.getLsbD_shiftLeft, BitVec.getLsbD_one]
      by_cases h : i < p
      · simp [hi, h]; omega
      · have : (i - p = 0) ↔ (i = p) := by omega
        simp [hi, h, this]; omega
    cases b
    · rw [setBit, if_neg (by simp), BitVec.getLsbD_and, BitVec.getLsbD_not, key]
      by_cases h : i = p <;> simp [h, hi]
    · rw [setBit, if_pos rfl, BitVec.getLsbD_or, key]
      by_cases h : i = p <;> simp [h]
  · have h : i ≠ p := by omega
    rw [BitVec.getLsbD_of_ge _ _ (by omega), if_neg h, BitVec.getLsbD_of_ge _ _ (by omega)]

theorem getLsbD_highByte (u : CodeUnit) (i : Nat) : (highByte u).getLsbD i = (decide (i < 8) && u.getLsbD (8 + i)) := by
  simp [highByte, BitVec.getLsbD_extractLsb']

theorem getLsbD_lowByte (u : CodeUnit) (i : Nat) : (lowByte u).getLsbD i = (decide (i < 8) && u.getLsbD i) := by
  simp [lowByte, BitVec.getLsbD_extractLsb']

/-- The unit of two stored bytes: the first is its high byte (R35). -/
theorem joinBytes_eq_append (hi lo : Byte) : joinBytes hi lo = hi ++ lo := by
  apply BitVec.eq_of_getLsbD_eq
  intro i hi'
  rw [BitVec.getLsbD_append]
  simp only [joinBytes, BitVec.getLsbD_or, BitVec.getLsbD_shiftLeft, BitVec.truncate_eq_setWidth,
    BitVec.getLsbD_setWidth]
  by_cases h : i < 8
  · simp [h, hi']
  · have : lo.getLsbD i = false := BitVec.getLsbD_of_ge _ _ (by omega)
    simp [h, hi', this]; omega

@[simp] theorem highByte_joinBytes (hi lo : Byte) : highByte (joinBytes hi lo) = hi := by
  rw [joinBytes_eq_append]
  apply BitVec.eq_of_getLsbD_eq
  intro i hi'
  rw [getLsbD_highByte, BitVec.getLsbD_append]
  simp [hi']

@[simp] theorem lowByte_joinBytes (hi lo : Byte) : lowByte (joinBytes hi lo) = lo := by
  rw [joinBytes_eq_append]
  apply BitVec.eq_of_getLsbD_eq
  intro i hi'
  rw [getLsbD_lowByte, BitVec.getLsbD_append]
  simp [hi']

/-- Splitting a unit into its stored bytes and rebuilding it loses nothing (R34, R35). -/
@[simp] theorem joinBytes_highByte_lowByte (u : CodeUnit) : joinBytes (highByte u) (lowByte u) = u := by
  rw [joinBytes_eq_append]
  apply BitVec.eq_of_getLsbD_eq
  intro i hi
  rw [BitVec.getLsbD_append, getLsbD_highByte, getLsbD_lowByte]
  by_cases h : i < 8
  · simp [h]
  · have h1 : i - 8 < 8 := by omega
    have h2 : 8 + (i - 8) = i := by omega
    simp [h, h1, h2]

/-! ### The bit coder -/

/-- The level after a coded bit is the bit XOR the level before. -/
theorem encBit_level (b : Bit) (l : Level) : (encBit b l).2 = .ofBit (b ^^ l.toBit) := by
  cases b <;> cases l <;> rfl

/-- The symbol of a coded bit: its second half-bit is the level after, its first the complement. -/
theorem encBit_symbol (b : Bit) (l : Level) :
    firstHalf (encBit b l).1 = !(b ^^ l.toBit) ∧ secondHalf (encBit b l).1 = (b ^^ l.toBit) := by
  cases b <;> cases l <;> decide

/-- `DecBit` of a symbol given by its half-bits: a value exactly when they differ. -/
theorem decBit_halves (x y : Bit) (l : Level) :
    decBit (BitVec.ofBool x ++ BitVec.ofBool y) l =
      if x = y then .error .symbolOutsideDomain else .ok (l.toBit ^^ y, .ofBit y) := by
  cases x <;> cases y <;> cases l <;> rfl

theorem symbolValid_halves (x y : Bit) : symbolValid (BitVec.ofBool x ++ BitVec.ofBool y) = (x != y) := by
  cases x <;> cases y <;> rfl

/-! ### The byte coder -/

/-- The slot pointer from 8 visits `SLOT_ORDER` and is at 8 again after eight steps (R18). -/
theorem slotOrder_visited : (List.range 9).map (fun i => Nat.repeat nextSlot i Config.firstSlot) =
    Config.slotOrder ++ [Config.firstSlot] := by decide

/-- A unit is valid exactly when the two bits of each slot differ. -/
theorem unitValid_iff (u : CodeUnit) :
    unitValid u = true ↔ ∀ j, j < 8 → u.getLsbD (2 * j) ≠ u.getLsbD (2 * j + 1) := by
  simp [unitValid]

/-- A valid unit's even bits are the complements of the odd bits above them. -/
theorem unitValid_even (u : CodeUnit) (h : unitValid u = true) (j : Nat) (hj : j < 8) :
    u.getLsbD (2 * j) = !u.getLsbD (2 * j + 1) := by
  have := (unitValid_iff u).1 h j hj
  cases hx : u.getLsbD (2 * j) <;> cases hy : u.getLsbD (2 * j + 1) <;> simp_all

/-- Two valid units with the same odd bits are equal. -/
theorem unitValid_ext (u v : CodeUnit) (hu : unitValid u = true) (hv : unitValid v = true)
    (h : ∀ j, j < 8 → u.getLsbD (2 * j + 1) = v.getLsbD (2 * j + 1)) : u = v := by
  apply BitVec.eq_of_getLsbD_eq
  intro i hi
  rcases Nat.even_or_odd' i with ⟨j, rfl | rfl⟩
  · rw [unitValid_even u hu j (by omega), unitValid_even v hv j (by omega), h j (by omega)]
  · exact h j (by omega)

/-- What `EncByte` does: a valid unit whose odd bits are the running parities from the level before, slot by slot,
and the level after the eighth bit. -/
theorem encByte_spec (d : Byte) (l : Level) :
    unitValid (encByte d l).1 = true ∧
    (∀ i, i < 8 → (encByte d l).1.getLsbD ((8 + 2 * i) % 16 + 1) = runningParity l.toBit d (i + 1)) ∧
    (encByte d l).2 = .ofBit (runningParity l.toBit d 8) := by
  revert l
  suffices h : ∀ d : Byte, (∀ l ∈ [Level.low, Level.high], unitValid (encByte d l).1 = true ∧
      (∀ i, i < 8 → (encByte d l).1.getLsbD ((8 + 2 * i) % 16 + 1) = runningParity l.toBit d (i + 1)) ∧
      (encByte d l).2 = .ofBit (runningParity l.toBit d 8)) by
    intro l; cases l <;> exact h d _ (by simp)
  decide +kernel

/-- `DecBit` of the symbol in a slot: a value exactly when the slot's two bits differ. -/
theorem decBit_slotSymbol (u : CodeUnit) (p : Nat) (l : Level) :
    decBit (slotSymbol u p) l = if u.getLsbD p = u.getLsbD (p + 1) then .error .symbolOutsideDomain
      else .ok (l.toBit ^^ u.getLsbD (p + 1), .ofBit (u.getLsbD (p + 1))) :=
  decBit_halves _ _ _

/-- `DecBitPermissive` of the symbol in a slot: `10` is read as Low after, all else as High after. -/
theorem decBitPermissive_slotSymbol (u : CodeUnit) (p : Nat) (l : Level) :
    decBitPermissive (slotSymbol u p) l =
      (l.toBit ^^ !(u.getLsbD p && !u.getLsbD (p + 1)), .ofBit !(u.getLsbD p && !u.getLsbD (p + 1))) := by
  unfold slotSymbol
  cases u.getLsbD p <;> cases u.getLsbD (p + 1) <;> cases l <;> rfl

/-- The eight bits put at positions 0 to 7 are read back there. -/
theorem getLsbD_setBit_chain (b : Nat → Bit) (k : Nat) (hk : k < 8) :
    (setBit 8 (setBit 8 (setBit 8 (setBit 8 (setBit 8 (setBit 8 (setBit 8 (setBit 8 0#8 0 (b 0)) 1 (b 1)) 2 (b 2)) 3
      (b 3)) 4 (b 4)) 5 (b 5)) 6 (b 6)) 7 (b 7)).getLsbD k = b k := by
  rw [getLsbD_setBit _ _ _ _ _ (by omega), getLsbD_setBit _ _ _ _ _ (by omega),
    getLsbD_setBit _ _ _ _ _ (by omega), getLsbD_setBit _ _ _ _ _ (by omega),
    getLsbD_setBit _ _ _ _ _ (by omega), getLsbD_setBit _ _ _ _ _ (by omega),
    getLsbD_setBit _ _ _ _ _ (by omega), getLsbD_setBit _ _ _ _ _ (by omega)]
  split_ifs <;> first | (subst_vars; rfl) | omega

/-- The level before the symbol of bit `k`, as `DecByte` carries it: the one given, then each slot's second
half-bit. -/
def carriedLevel (u : CodeUnit) (l : Level) (k : Nat) : Level :=
  match k with
  | 0 => l
  | j + 1 => .ofBit (u.getLsbD ((8 + 2 * j) % 16 + 1))

/-- What `DecByte` does on a valid unit: bit `k` is the carried level XOR the second half-bit of its slot, and the
level after is `u[7]`. -/
theorem decByte_valid (u : CodeUnit) (l : Level) (h : unitValid u = true) :
    ∃ r : Byte, decByteUnder .strict u l = .ok (r, .ofBit (u.getLsbD 7)) ∧
      ∀ k, k < 8 → r.getLsbD k = ((carriedLevel u l k).toBit ^^ u.getLsbD ((8 + 2 * k) % 16 + 1)) := by
  have hv := (unitValid_iff u).1 h
  have h0 := hv 0 (by omega); have h1 := hv 1 (by omega); have h2 := hv 2 (by omega)
  have h3 := hv 3 (by omega); have h4 := hv 4 (by omega); have h5 := hv 5 (by omega)
  have h6 := hv 6 (by omega); have h7 := hv 7 (by omega)
  refine ⟨_, ?_, fun k hk => getLsbD_setBit_chain
    (fun k => (carriedLevel u l k).toBit ^^ u.getLsbD ((8 + 2 * k) % 16 + 1)) k hk⟩
  simp only [Nat.reduceMul, Nat.reduceAdd] at h0 h1 h2 h3 h4 h5 h6 h7
  simp [-BitVec.getLsbD_eq_getElem, decByteUnder, decByteLoop, decBitUnder, decBit_slotSymbol, nextSlot, Config.firstSlot, Config.slotWrap, h0, h1, h2, h3, h4, h5, h6, h7,
    carriedLevel]

/-- `DecByte` has no value on a unit that is not valid. -/
theorem decByte_invalid (u : CodeUnit) (l : Level) (h : unitValid u = false) :
    decByteUnder .strict u l = .error .symbolOutsideDomain := by
  simp only [decByteUnder, decByteLoop, decBitUnder, decBit_slotSymbol, nextSlot, Config.firstSlot, Config.slotWrap,
    Nat.reduceAdd, Nat.reduceEqDiff, if_true, if_false]
  by_cases h8 : u.getLsbD 8 = u.getLsbD 9
  · simp only [h8, if_true]
  simp only [h8, if_false]
  by_cases h10 : u.getLsbD 10 = u.getLsbD 11
  · simp only [h10, if_true]
  simp only [h10, if_false]
  by_cases h12 : u.getLsbD 12 = u.getLsbD 13
  · simp only [h12, if_true]
  simp only [h12, if_false]
  by_cases h14 : u.getLsbD 14 = u.getLsbD 15
  · simp only [h14, if_true]
  simp only [h14, if_false]
  by_cases h0 : u.getLsbD 0 = u.getLsbD 1
  · simp only [h0, if_true]
  simp only [h0, if_false]
  by_cases h2 : u.getLsbD 2 = u.getLsbD 3
  · simp only [h2, if_true]
  simp only [h2, if_false]
  by_cases h4 : u.getLsbD 4 = u.getLsbD 5
  · simp only [h4, if_true]
  simp only [h4, if_false]
  by_cases h6 : u.getLsbD 6 = u.getLsbD 7
  · simp only [h6, if_true]
  simp only [h6, if_false]
  have : unitValid u = true := (unitValid_iff u).2 fun j hj => by interval_cases j <;> assumption
  simp [h] at this

/-- What `DecBytePermissive` does, on every unit: bit `k` is the level before XOR the level after its symbol, where
`10` leaves Low and everything else High. -/
theorem decByte_permissive (u : CodeUnit) (l : Level) :
    ∃ r : Byte, decByteUnder .permissive u l = .ok (r, .ofBit !(u.getLsbD 6 && !u.getLsbD 7)) ∧
      ∀ k, k < 8 → r.getLsbD k =
        ((match k with
          | 0 => l.toBit
          | j + 1 => !(u.getLsbD ((8 + 2 * j) % 16) && !u.getLsbD ((8 + 2 * j) % 16 + 1))) ^^
          !(u.getLsbD ((8 + 2 * k) % 16) && !u.getLsbD ((8 + 2 * k) % 16 + 1))) := by
  refine ⟨_, ?_, fun k hk => getLsbD_setBit_chain
    (fun k => (match k with
          | 0 => l.toBit
          | j + 1 => !(u.getLsbD ((8 + 2 * j) % 16) && !u.getLsbD ((8 + 2 * j) % 16 + 1))) ^^
          !(u.getLsbD ((8 + 2 * k) % 16) && !u.getLsbD ((8 + 2 * k) % 16 + 1))) k hk⟩
  simp [-BitVec.getLsbD_eq_getElem, decByteUnder, decByteLoop, decBitUnder, decBitPermissive_slotSymbol, nextSlot, Config.firstSlot,
    Config.slotWrap]

/-- The permissive byte decoder has a value on every unit; the strict one exactly on the valid units. -/
theorem decByteUnder_ok (pol : SymbolPolicy) (u : CodeUnit) (l : Level) (h : unitRejected pol u = false) :
    ∃ out, decByteUnder pol u l = .ok out := by
  cases pol with
  | strict =>
    obtain ⟨r, hr, -⟩ := decByte_valid u l (by simpa [unitRejected] using h)
    exact ⟨_, hr⟩
  | permissive =>
    obtain ⟨r, hr, -⟩ := decByte_permissive u l
    exact ⟨_, hr⟩

end Sys2Proof.Machine
end

