-- ==== Sys2Proof/Laws/Buffer.lean ====
section
/-! SUPPORT. What the loops of ENCODE and DECODE do, each said once in terms of byte sequences (spec/42_buffer_coder.md
R90, R91), and the small lemmas of the sequence functions. -/

namespace Sys2Proof.Machine

/-! ### Sequences -/

@[simp] theorem encodeUnits_nil (l : Level) : encodeUnits l [] = ([], l) := rfl

theorem encodeUnits_cons (l : Level) (d : Byte) (ds : List Byte) :
    encodeUnits l (d :: ds) =
      ((encByte d l).1 :: (encodeUnits (encByte d l).2 ds).1, (encodeUnits (encByte d l).2 ds).2) := rfl

@[simp] theorem length_encodeUnits (l : Level) (ds : List Byte) : (encodeUnits l ds).1.length = ds.length := by
  induction ds generalizing l with
  | nil => rfl
  | cons d ds ih => simp [encodeUnits_cons, ih]

@[simp] theorem storeUnits_nil : storeUnits [] = [] := rfl

theorem storeUnits_cons (u : CodeUnit) (us : List CodeUnit) :
    storeUnits (u :: us) = highByte u :: lowByte u :: storeUnits us := rfl

@[simp] theorem length_storeUnits (us : List CodeUnit) : (storeUnits us).length = 2 * us.length := by
  induction us with
  | nil => rfl
  | cons u us ih => simp [storeUnits_cons, ih]; omega

@[simp] theorem loadUnits_nil : loadUnits [] = [] := rfl

theorem loadUnits_cons_cons (hi lo : Byte) (bs : List Byte) :
    loadUnits (hi :: lo :: bs) = joinBytes hi lo :: loadUnits bs := rfl

/-- Loading stored units gives the units back (R34, R35). -/
@[simp] theorem loadUnits_storeUnits (us : List CodeUnit) : loadUnits (storeUnits us) = us := by
  induction us with
  | nil => rfl
  | cons u us ih => rw [storeUnits_cons, loadUnits_cons_cons, ih, joinBytes_highByte_lowByte]

/-- Storing the units of an even-length sequence gives the sequence back (R54). -/
theorem storeUnits_loadUnits (bs : List Byte) (h : bs.length % 2 = 0) : storeUnits (loadUnits bs) = bs := by
  induction bs using loadUnits.induct with
  | case1 hi lo rest ih =>
    rw [loadUnits_cons_cons, storeUnits_cons, highByte_joinBytes, lowByte_joinBytes, ih (by simp_all; omega)]
  | case2 bs hne =>
    rcases bs with _ | ⟨x, _ | ⟨y, bs⟩⟩
    · rfl
    · simp at h
    · exact absurd rfl (hne x y bs)

theorem decodeUnits_nil (pol : SymbolPolicy) (l : Level) : decodeUnits pol l [] = .ok ([], l) := rfl

/-- Decoding a unit that has a value, then the rest. -/
theorem decodeUnits_cons (pol : SymbolPolicy) (l : Level) (u : CodeUnit) (us : List CodeUnit) (out : Byte × Level)
    (tail : List Byte × Level) (h : decByteUnder pol u l = .ok out) (ht : decodeUnits pol out.2 us = .ok tail) :
    decodeUnits pol l (u :: us) = .ok (out.1 :: tail.1, tail.2) := by
  simp [decodeUnits, h, ht, bind, Except.bind, pure, Except.pure]

/-- Units none of which is an error decode, one byte each. -/
theorem decodeUnits_ok (pol : SymbolPolicy) (l : Level) (us : List CodeUnit)
    (h : ∀ u ∈ us, unitRejected pol u = false) :
    ∃ rs lev, decodeUnits pol l us = .ok (rs, lev) ∧ rs.length = us.length := by
  induction us generalizing l with
  | nil => exact ⟨[], l, rfl, rfl⟩
  | cons u us ih =>
    obtain ⟨out, hout⟩ := decByteUnder_ok pol u l (h u (by simp))
    obtain ⟨rs, lev, hrs, hlen⟩ := ih out.2 fun v hv => h v (by simp [hv])
    exact ⟨_, _, decodeUnits_cons pol l u us out (rs, lev) hout hrs, by simp [hlen]⟩

/-! ### The loops over memory -/

/-- ENCODE's loop within its buffers: the units of the bytes still to read, stored from the place reached. -/
theorem encodeLoop_spec (la : Launch) (n k : Nat) (l : Level) (m : Memory) (hk : k + n ≤ la.inputLen)
    (hc : 2 * (k + n) ≤ la.outputCapacity)
    (hd : regionsMeet la.inp.base la.inputLen la.out.base la.outputCapacity = false) :
    encodeLoop la n k l m =
      .ok ((encodeUnits l (m.readBytes (la.inp.base + k) n)).2,
        m.writeBytes (la.out.base + 2 * k) (storeUnits (encodeUnits l (m.readBytes (la.inp.base + k) n)).1)) := by
  induction n generalizing k l m with
  | zero => rfl
  | succ n ih =>
    have hne : ∀ x, la.inp.base + k ≤ x → x < la.inp.base + (k + (n + 1)) →
        x ≠ la.out.base + 2 * k ∧ x ≠ la.out.base + (2 * k + 1) := fun x h₁ h₂ =>
      ⟨regionsMeet_eq_false _ _ _ _ hd _ _ (by omega) (by omega),
        regionsMeet_eq_false _ _ _ _ hd _ _ (by omega) (by omega)⟩
    simp only [encodeLoop, bind, Except.bind, memRead_of_lt la m k (by omega),
      memWrite_of_lt la _ (2 * k) _ (by omega), memWrite_of_lt la _ (2 * k + 1) _ (by omega)]
    rw [ih _ _ _ (by omega) (by omega), Memory.readBytes_succ, encodeUnits_cons, storeUnits_cons,
      Memory.writeBytes_cons, Memory.writeBytes_cons]
    have hr : ∀ v w, Memory.readBytes ((m.write (la.out.base + 2 * k) v).write (la.out.base + (2 * k + 1)) w)
        (la.inp.base + (k + 1)) n = m.readBytes (la.inp.base + k + 1) n := fun v w =>
      Memory.readBytes_congr _ _ _ _ fun b h₁ h₂ => by
        obtain ⟨ne₁, ne₂⟩ := hne b (by omega) (by omega)
        rw [Memory.read_write_other _ _ _ _ ne₂, Memory.read_write_other _ _ _ _ ne₁]
    rw [hr]
    rfl

/-- The unit at an input offset within the buffer. -/
theorem readUnit_spec (la : Launch) (m : Memory) (i : Nat) (h : i + 1 < la.inputLen) :
    readUnit la m i = .ok (joinBytes (m.read (la.inp.base + i)) (m.read (la.inp.base + i + 1))) := by
  simp only [readUnit, bind, Except.bind, pure, Except.pure, memRead_of_lt la m i (by omega),
    memRead_of_lt la m (i + 1) h]
  rfl

theorem loadUnits_readBytes (m : Memory) (a n : Nat) :
    loadUnits (m.readBytes a (2 * (n + 1))) =
      joinBytes (m.read a) (m.read (a + 1)) :: loadUnits (m.readBytes (a + 2) (2 * n)) := by
  rw [show 2 * (n + 1) = 2 * n + 1 + 1 from rfl, Memory.readBytes_succ, Memory.readBytes_succ, loadUnits_cons_cons]

/-- DECODE's validation within its buffer: whether no unit still to read is an error. -/
theorem validateLoop_spec (pol : SymbolPolicy) (la : Launch) (n i : Nat) (m : Memory)
    (h : i + 2 * n ≤ la.inputLen) :
    validateLoop pol la n i m =
      .ok ((loadUnits (m.readBytes (la.inp.base + i) (2 * n))).all fun u => !unitRejected pol u) := by
  induction n generalizing i with
  | zero => rfl
  | succ n ih =>
    simp only [validateLoop, bind, Except.bind, pure, Except.pure, readUnit_spec la m i (by omega)]
    rw [ih (i + 2) (by omega), loadUnits_readBytes, List.all_cons]
    cases unitRejected pol (joinBytes (m.read (la.inp.base + i)) (m.read (la.inp.base + i + 1))) <;> simp [Nat.add_assoc]

/-- DECODE's loop within its buffers: the bytes of the units still to read, stored from the place reached. -/
theorem decodeLoop_spec (pol : SymbolPolicy) (la : Launch) (n k : Nat) (l : Level) (m : Memory) (rs : List Byte)
    (lev : Level) (hk : 2 * k + 2 * n ≤ la.inputLen) (hc : k + n ≤ la.outputCapacity)
    (hd : regionsMeet la.inp.base la.inputLen la.out.base la.outputCapacity = false)
    (hu : decodeUnits pol l (loadUnits (m.readBytes (la.inp.base + 2 * k) (2 * n))) = .ok (rs, lev)) :
    decodeLoop pol la n (2 * k) l m = .ok (lev, m.writeBytes (la.out.base + k) rs) := by
  induction n generalizing k l m rs lev with
  | zero =>
    simp only [Nat.mul_zero, Memory.readBytes_zero, loadUnits_nil, decodeUnits_nil, Except.ok.injEq,
      Prod.mk.injEq] at hu
    obtain ⟨rfl, rfl⟩ := hu
    rfl
  | succ n ih =>
    rw [loadUnits_readBytes] at hu
    simp only [decodeUnits, bind, Except.bind, pure, Except.pure] at hu
    cases hout : decByteUnder pol
        (joinBytes (m.read (la.inp.base + 2 * k)) (m.read (la.inp.base + 2 * k + 1))) l with
    | error f => simp [hout] at hu
    | ok out =>
      simp only [hout] at hu
      cases htail : decodeUnits pol out.2 (loadUnits (m.readBytes (la.inp.base + 2 * k + 2) (2 * n))) with
      | error f => simp [htail] at hu
      | ok tail =>
        simp only [htail, Except.ok.injEq, Prod.mk.injEq] at hu
        obtain ⟨rfl, rfl⟩ := hu
        have hw : 2 * k / 2 = k := by omega
        simp only [decodeLoop, bind, Except.bind, readUnit_spec la m (2 * k) (by omega), hout, hw,
          memWrite_of_lt la m k _ (show k < la.outputCapacity by omega)]
        rw [Memory.writeBytes_cons, show 2 * k + 2 = 2 * (k + 1) from rfl, ih (k + 1) out.2 _ tail.1 tail.2 (by omega)
          (by omega)]
        · rfl
        · rw [← htail]
          congr 2
          refine Memory.readBytes_congr _ _ _ _ fun b h₁ h₂ => Memory.read_write_other _ _ _ _ ?_
          exact regionsMeet_eq_false _ _ _ _ hd _ _ (by omega) (by omega)

end Sys2Proof.Machine
end

