-- ==== Sys2Proof/Laws/PerInstr.lean ====
section
/-! SUPPORT. The statement made per instruction: the op-select code alone names the operation (R60, R62). -/

namespace Sys2Proof.Laws.OpSelectNames

/-- Every request with `i`'s op-select code decodes to an operation with `i`'s mnemonic, whatever its operand ports
hold. -/
def Statement (i : Instr) : Prop := ∀ r : Request, r.op = i.opSelect → (decode r).mnemonic = i.mnemonic

theorem encStart : Statement .encStart := fun r h => by
  simp [decode, h, Instr.opSelect, Instr.mnemonic]
theorem encBit (b : Bit) : Statement (.encBit b) := fun r h => by
  simp [decode, h, Instr.opSelect, Instr.mnemonic]
theorem encByte (d : Byte) : Statement (.encByte d) := fun r h => by
  simp [decode, h, Instr.opSelect, Instr.mnemonic]
theorem encodeBuf (l : Launch) : Statement (.encodeBuf l) := fun r h => by
  simp [decode, h, Instr.opSelect, Instr.mnemonic]
theorem decStart : Statement .decStart := fun r h => by
  simp [decode, h, Instr.opSelect, Instr.mnemonic]
theorem decSym (x : Symbol) : Statement (.decSym x) := fun r h => by
  simp [decode, h, Instr.opSelect, Instr.mnemonic]
theorem decUnit (u : CodeUnit) : Statement (.decUnit u) := fun r h => by
  simp [decode, h, Instr.opSelect, Instr.mnemonic]
theorem decodeBuf (l : Launch) : Statement (.decodeBuf l) := fun r h => by
  simp [decode, h, Instr.opSelect, Instr.mnemonic]

end Sys2Proof.Laws.OpSelectNames
end

