-- ==== Sys2Proof/Laws/Exec.lean ====
section
/-! SUPPORT. Everything an operation can do, said once: `decodeBufUnder_eq` and `execEncodeBuf_eq` for the buffer
operations, `decSymUnder_cases` and `decUnitUnder_cases` for the decoder's two others, and `exec_cases` for all
eight. The proofs about `exec` start from these. -/

namespace Sys2Proof.Machine

theorem launchRefusal_cases (l : Launch) : launchRefusal l = none ∨ ∃ r, launchRefusal l = some r := by
  cases launchRefusal l <;> simp

/-- DECODE of a launch that is not refused: the first check that fails, or the decoded bytes stored. -/
theorem decodeBufUnder_eq (pol : SymbolPolicy) (l : Launch) (s : State) (h : launchRefusal l = none) :
    decodeBufUnder pol l s =
      if l.outputCapacity * 2 < l.inputLen then .next (s.setResponse { status := .capacityError })
      else if l.inputLen % 2 = 1 then .next (s.setResponse { status := .lengthError })
      else if ((loadUnits (s.mem.readBytes l.inp.base l.inputLen)).all fun u => !unitRejected pol u) then
        match decodeUnits pol .high (loadUnits (s.mem.readBytes l.inp.base l.inputLen)) with
        | .ok out => .next (((s.setMem (s.mem.writeBytes l.out.base out.1)).setDecLevel out.2).setResponse {})
        | .error f => .fault f
      else .next (s.setResponse { status := .invalidSymbolError }) := by
  obtain ⟨ht, hd⟩ := (launchRefusal_eq_none l).1 h
  have hd' : regionsMeet l.inp.base l.inputLen l.out.base l.outputCapacity = false := by
    simp only [launchRefusal] at h; split_ifs at h with h1 h2; simpa using h2
  simp only [decodeBufUnder, h, decodeTooSmall, oddLength, decide_eq_true_eq, beq_iff_eq]
  split_ifs with h1 h2 h3
  · rfl
  · rfl
  · have h2' : 2 * (l.inputLen / 2) = l.inputLen := by omega
    rw [validateLoop_spec pol l _ 0 _ (by omega)]
    simp only [orFault_ok, Nat.add_zero, h2', h3, if_true]
    obtain ⟨rs, lev, hrs, hlen⟩ := decodeUnits_ok pol .high (loadUnits (s.mem.readBytes l.inp.base l.inputLen))
      (fun u hu => by have := List.all_eq_true.1 h3 u hu; simpa using this)
    have := decodeLoop_spec pol l (l.inputLen / 2) 0 .high s.mem rs lev (by omega) (by omega) hd'
      (by simpa [h2'] using hrs)
    simp only [Nat.mul_zero, Nat.add_zero] at this
    rw [this, hrs]
    rfl
  · have h2' : 2 * (l.inputLen / 2) = l.inputLen := by omega
    rw [validateLoop_spec pol l _ 0 _ (by omega)]
    simp only [orFault_ok, Nat.add_zero, h2', h3]
    rfl

/-- ENCODE of a launch that is not refused: too small, or the code of the input stored. -/
theorem execEncodeBuf_eq (l : Launch) (s : State) (h : launchRefusal l = none) :
    execEncodeBuf l s =
      if l.inputLen * 2 > l.outputCapacity then .next (s.setResponse { status := .capacityError })
      else .next (((s.setMem (s.mem.writeBytes l.out.base (enc (s.mem.readBytes l.inp.base l.inputLen)))).setEncLevel
        (encodeUnits .high (s.mem.readBytes l.inp.base l.inputLen)).2).setResponse {}) := by
  have hd' : regionsMeet l.inp.base l.inputLen l.out.base l.outputCapacity = false := by
    simp only [launchRefusal] at h; split_ifs at h with h1 h2; simpa using h2
  simp only [execEncodeBuf, h, encodeTooSmall, decide_eq_true_eq]
  split_ifs with h1
  · rfl
  · rw [encodeLoop_spec l _ 0 _ _ (by omega) (by omega) hd']
    rfl

/-- DEC.SYM errs, or delivers the bit decoder's value. -/
theorem decSymUnder_cases (pol : SymbolPolicy) (x : Symbol) (s : State) :
    (decSymUnder pol x s = raiseError .invalidSymbolError s ∧ symbolRejected pol x = true) ∨
    ∃ out, decSymUnder pol x s = returnOk { bit := some out.1 } (s.setDecLevel out.2) ∧
      decBitUnder pol x s.decLevel = .ok out ∧ symbolRejected pol x = false := by
  unfold decSymUnder
  by_cases h : symbolRejected pol x = true
  · simp [h]
  · right
    rw [if_neg h]
    cases pol with
    | permissive => exact ⟨_, rfl, rfl, by simp [symbolRejected]⟩
    | strict =>
      have hv : x = 0b10#2 ∨ x = 0b01#2 := by
        by_cases h2 : x = 0b10#2
        · exact .inl h2
        · exact .inr (by simpa [symbolRejected, symbolValid, h2] using h)
      rcases hv with rfl | rfl <;> exact ⟨_, rfl, rfl, by decide⟩

/-- DEC.UNIT errs, or delivers the byte decoder's value. -/
theorem decUnitUnder_cases (pol : SymbolPolicy) (u : CodeUnit) (s : State) :
    (decUnitUnder pol u s = raiseError .invalidSymbolError s ∧ unitRejected pol u = true) ∨
    ∃ out, decUnitUnder pol u s = returnOk { r := some out.1 } (s.setDecLevel out.2) ∧
      decByteUnder pol u s.decLevel = .ok out ∧ unitRejected pol u = false := by
  unfold decUnitUnder
  by_cases h : unitRejected pol u = true
  · simp [h]
  · right
    obtain ⟨out, ho⟩ := decByteUnder_ok pol u s.decLevel (by simpa using h)
    exact ⟨out, by simp [h, ho], ho, by simpa using h⟩

/-- Everything an operation can do: refuse its launch, err and change nothing but the response, or complete with its
own effect. -/
theorem exec_cases (i : Instr) (s : State) :
    (∃ r, exec i s = .refused r ∧ ∃ l, launchOf i = some l ∧ launchRefusal l = some r) ∨
    (∃ e, e ≠ .ok ∧ exec i s = .next (s.setResponse { status := e })) ∨
    (∃ r : Response, r.status = .ok ∧
      ((i = .encStart ∧ r = {} ∧ exec i s = .next ((s.setEncLevel .high).setResponse r)) ∨
       (i = .decStart ∧ r = {} ∧ exec i s = .next ((s.setDecLevel .high).setResponse r)) ∨
       (∃ b, i = .encBit b ∧ r = { sym := some (encBit b s.encLevel).1 } ∧
          exec i s = .next ((s.setEncLevel (encBit b s.encLevel).2).setResponse r)) ∨
       (∃ d, i = .encByte d ∧ r = { q := some (encByte d s.encLevel).1 } ∧
          exec i s = .next ((s.setEncLevel (encByte d s.encLevel).2).setResponse r)) ∨
       (∃ x out, i = .decSym x ∧ r = { bit := some out.1 } ∧ decBit x s.decLevel = .ok out ∧
          exec i s = .next ((s.setDecLevel out.2).setResponse r)) ∨
       (∃ u out, i = .decUnit u ∧ r = { r := some out.1 } ∧ decByteUnder .strict u s.decLevel = .ok out ∧
          exec i s = .next ((s.setDecLevel out.2).setResponse r)) ∨
       (∃ l, i = .encodeBuf l ∧ r = {} ∧ launchRefusal l = none ∧
          exec i s = .next (((s.setMem (s.mem.writeBytes l.out.base (enc (s.mem.readBytes l.inp.base l.inputLen)))).setEncLevel
            (encodeUnits .high (s.mem.readBytes l.inp.base l.inputLen)).2).setResponse r)) ∨
       (∃ l out, i = .decodeBuf l ∧ r = {} ∧ launchRefusal l = none ∧
          decodeUnits .strict .high (loadUnits (s.mem.readBytes l.inp.base l.inputLen)) = .ok out ∧
          exec i s = .next (((s.setMem (s.mem.writeBytes l.out.base out.1)).setDecLevel out.2).setResponse r)))) := by
  cases i with
  | encStart => exact .inr (.inr ⟨{}, rfl, .inl ⟨rfl, rfl, rfl⟩⟩)
  | decStart => exact .inr (.inr ⟨{}, rfl, .inr (.inl ⟨rfl, rfl, rfl⟩)⟩)
  | encBit b => exact .inr (.inr ⟨_, rfl, .inr (.inr (.inl ⟨b, rfl, rfl, rfl⟩))⟩)
  | encByte d => exact .inr (.inr ⟨_, rfl, .inr (.inr (.inr (.inl ⟨d, rfl, rfl, rfl⟩)))⟩)
  | decSym x =>
    rcases decSymUnder_cases .strict x s with ⟨h, -⟩ | ⟨out, h, ho, -⟩
    · exact .inr (.inl ⟨_, Status.noConfusion, h⟩)
    · exact .inr (.inr ⟨_, rfl, .inr (.inr (.inr (.inr (.inl ⟨x, out, rfl, rfl, ho, h⟩))))⟩)
  | decUnit u =>
    rcases decUnitUnder_cases .strict u s with ⟨h, -⟩ | ⟨out, h, ho, -⟩
    · exact .inr (.inl ⟨_, Status.noConfusion, h⟩)
    · exact .inr (.inr ⟨_, rfl, .inr (.inr (.inr (.inr (.inr (.inl ⟨u, out, rfl, rfl, ho, h⟩)))))⟩)
  | encodeBuf l =>
    rcases launchRefusal_cases l with h | ⟨r, h⟩
    · have he := execEncodeBuf_eq l s h
      by_cases hc : l.inputLen * 2 > l.outputCapacity
      · exact .inr (.inl ⟨.capacityError, by decide, by simpa [hc, exec] using he⟩)
      · exact .inr (.inr ⟨{}, rfl, .inr (.inr (.inr (.inr (.inr (.inr (.inl ⟨l, rfl, rfl, h, by simpa [hc, exec] using he⟩))))))⟩)
    · exact .inl ⟨r, by simp [exec, execEncodeBuf, h], l, rfl, h⟩
  | decodeBuf l =>
    rcases launchRefusal_cases l with h | ⟨r, h⟩
    · have he := decodeBufUnder_eq .strict l s h
      simp only [exec, execDecodeBuf, Config.symbolPolicy]
      split_ifs at he with h1 h2 h3
      · exact .inr (.inl ⟨_, Status.noConfusion, he⟩)
      · exact .inr (.inl ⟨_, Status.noConfusion, he⟩)
      · obtain ⟨rs, lev, hrs, hlen⟩ := decodeUnits_ok .strict .high (loadUnits (s.mem.readBytes l.inp.base l.inputLen))
          (fun u hu => by have := List.all_eq_true.1 h3 u hu; simpa using this)
        rw [hrs] at he
        exact .inr (.inr ⟨{}, rfl, .inr (.inr (.inr (.inr (.inr (.inr (.inr ⟨l, (rs, lev), rfl, rfl, h, hrs, he⟩))))))⟩)
      · exact .inr (.inl ⟨_, Status.noConfusion, he⟩)
    · exact .inl ⟨r, by simp [exec, execDecodeBuf, decodeBufUnder, h], l, rfl, h⟩

end Sys2Proof.Machine
end

