-- ==== Sys2Proof/Tests/Slice0.lean ====
section
/-! SUPPORT. Tests. Expected values are the spec's own (spec/95_test_vectors.md, cited by vector) or written out by
hand from its tables; then, for each statement with hypotheses, a state and operands that meet them all. -/

namespace Sys2Proof.Tests
open Sys2Proof.Machine

/-- The next state of an outcome, if it is one. -/
def nextOf (r : Result) : Option State :=
  match r with
  | .next t => some t
  | .fault _ => none
  | .refused _ => none

/-- A small state: two levels and bytes from address 0. -/
def small (e d : Level) (bs : List Byte) : State :=
  { State.reset with encLevel := e, decLevel := d, mem := Memory.writeBytes [] 0 bs }

/-- A launch from address 0 into address 16, with real sizes 16. -/
def from0to16 (inputLen outputCapacity : Nat) : Launch := ⟨⟨0, 16⟩, inputLen, ⟨16, 16⟩, outputCapacity⟩

/-- What a test looks at: the two levels, the response, and `n` bytes from address 16. -/
def seen (n : Nat) (r : Result) : Option (Level × Level × Option Response × List Byte) :=
  (nextOf r).map fun t => (t.encLevel, t.decLevel, t.response, t.mem.readBytes 16 n)

/-! ### Well-formedness: one ill-formed term per check -/

theorem test_wf_accepts : (Instr.encodeBuf (from0to16 8 16)).wellFormed = true := by decide
theorem test_wf_input_longer_than_buffer : (Instr.encodeBuf (from0to16 17 16)).wellFormed = false := by decide
theorem test_wf_capacity_beyond_buffer : (Instr.decodeBuf (from0to16 2 17)).wellFormed = false := by decide
theorem test_wf_overlap_by_one_byte :
    (Instr.encodeBuf ⟨⟨0, 8⟩, 5, ⟨4, 16⟩, 16⟩).wellFormed = false ∧
    (Instr.encodeBuf ⟨⟨0, 8⟩, 4, ⟨4, 16⟩, 16⟩).wellFormed = true := by decide
theorem test_wf_input_len_beyond_ports :
    (Instr.encodeBuf ⟨⟨0, 300⟩, 256, ⟨300, 600⟩, 0⟩).wellFormedAt (some 8) = false := by decide
theorem test_wf_capacity_beyond_ports :
    (Instr.decodeBuf ⟨⟨0, 300⟩, 255, ⟨300, 600⟩, 256⟩).wellFormedAt (some 8) = false := by decide

/-! ### Decoding: the codes of R60 written out bit by bit (op[2] half, op[1:0] layer) -/

theorem test_decode_enc_start : decodeTableWord 8 0b00000000 = some .encStart := by decide
theorem test_decode_enc_bit : decodeTableWord 8 0b00000001 = some (.encBit false) := by decide
theorem test_decode_enc_byte : decodeTableWord 8 0b00000010 = some (.encByte 0) := by decide
theorem test_decode_encode : decodeTableWord 8 0b00000011 = some (.encodeBuf ⟨⟨0, 0⟩, 0, ⟨0, 0⟩, 0⟩) := by decide
theorem test_decode_dec_start : decodeTableWord 8 0b00000100 = some .decStart := by decide
theorem test_decode_dec_sym : decodeTableWord 8 0b00000101 = some (.decSym 0) := by decide
theorem test_decode_dec_unit : decodeTableWord 8 0b00000110 = some (.decUnit 0) := by decide
theorem test_decode_decode : decodeTableWord 8 0b00000111 = some (.decodeBuf ⟨⟨0, 0⟩, 0, ⟨0, 0⟩, 0⟩) := by decide
theorem test_decode_too_short : decodeTableWord 2 0b11 = none := by decide
/-- P1 line 2: `010` with `d` = 0x48 on its port. -/
theorem test_decode_operand_port : decode { op := 0b010#3, d := 0x48#8, u := 0xFFFF#16 } = .encByte 0x48#8 := by decide

/-! ### The bit coder: T1, T2 -/

theorem test_enc_start : seen 0 (exec .encStart (small .low .low [])) = some (.high, .low, some {}, []) := by decide
theorem test_dec_start : seen 0 (exec .decStart (small .low .low [])) = some (.low, .high, some {}, []) := by decide
theorem test_encBit_T1 :
    encBit false .low = (0b10#2, .low) ∧ encBit false .high = (0b01#2, .high) ∧
    encBit true .low = (0b01#2, .high) ∧ encBit true .high = (0b10#2, .low) := by decide
/-- 40_bit_coder.md, the example of ENC.BIT. -/
theorem test_enc_bit : seen 0 (exec (.encBit false) (small .high .low [])) =
    some (.high, .low, some { sym := some 0b01#2 }, []) := by decide
/-- T2, `10` from High. -/
theorem test_dec_sym : seen 0 (exec (.decSym 0b10#2) (small .low .high [])) =
    some (.low, .low, some { bit := some true }, []) := by decide
/-- T2, `11` from Low: InvalidSymbolError, nothing changed. -/
theorem test_dec_sym_invalid : seen 0 (exec (.decSym 0b11#2) (small .high .low [])) =
    some (.high, .low, some { status := .invalidSymbolError }, []) := by decide
/-- T2, the permissive rows of `00` and `11`. -/
theorem test_decBitPermissive_T2 :
    decBitPermissive 0b00#2 .low = (true, .high) ∧ decBitPermissive 0b00#2 .high = (false, .high) ∧
    decBitPermissive 0b11#2 .low = (true, .high) ∧ decBitPermissive 0b11#2 .high = (false, .high) := by decide

/-! ### The byte coder: T3, V2, V3, V7, V9, V10, V26 -/

/-- T3: the byte coded from each nibble from High, and the level after. -/
theorem test_nibEnc_T3 : (List.range 16).map (fun n => nibEnc (BitVec.ofNat 4 n) .high) =
    [(0xAA#8, .high), (0x55#8, .low), (0x56#8, .low), (0xA9#8, .high), (0x5A#8, .low), (0xA5#8, .high),
     (0xA6#8, .high), (0x59#8, .low), (0x6A#8, .low), (0x95#8, .high), (0x96#8, .high), (0x69#8, .low),
     (0x9A#8, .high), (0x65#8, .low), (0x66#8, .low), (0x99#8, .high)] := by decide
/-- V2. -/
theorem test_enc_byte_V2 : seen 0 (exec (.encByte 0x74#8) (small .high .low [])) =
    some (.high, .low, some { q := some 0x5AA6#16 }, []) := by decide
/-- V3, V7: 0xE4 and 0x80 from High; 0x01 and 0xFF from Low (T4). -/
theorem test_encByte_V3_V7 :
    encByte 0xE4#8 .high = (0x5A99#16, .high) ∧ encByte 0x80#8 .high = (0xAA6A#16, .low) ∧
    encByte 0x01#8 .low = (0xAAAA#16, .high) ∧ encByte 0xFF#8 .low = (0x6666#16, .low) := by decide
/-- V9, 0xAA6A from Low. -/
theorem test_dec_unit_V9 : seen 0 (exec (.decUnit 0xAA6A#16) (small .high .low [])) =
    some (.high, .low, some { r := some 0x81#8 }, []) := by decide
/-- V10, slot 14 holds `11`. -/
theorem test_dec_unit_V10 : seen 0 (exec (.decUnit 0xDAA6#16) (small .high .low [])) =
    some (.high, .low, some { status := .invalidSymbolError }, []) := by decide
/-- V26, 0xDAA6 under the permissive policy. -/
theorem test_dec_unit_permissive_V26 : seen 0 (decUnitUnder .permissive 0xDAA6#16 (small .low .high [])) =
    some (.low, .high, some { r := some 0x6C#8 }, []) := by decide

/-! ### The buffer coder: V17, V19c, V21h, V23a, V24b, V25c -/

theorem test_encode_V17 : seen 8 (exec (.encodeBuf (from0to16 4 8)) (small .low .low [0x80, 0x01, 0x7F, 0xFE])) =
    some (.high, .low, some {}, [0xAA, 0x6A, 0xAA, 0xAA, 0x99, 0x59, 0x99, 0x99]) := by decide
theorem test_encode_V19c : seen 5 (exec (.encodeBuf (from0to16 3 5)) (small .low .low [0x74, 0xE4, 0xA5])) =
    some (.low, .low, some { status := .capacityError }, [0, 0, 0, 0, 0]) := by decide
theorem test_decode_V21h : seen 2 (exec (.decodeBuf (from0to16 4 2)) (small .low .low [0x6A, 0xA5, 0x95, 0xA6])) =
    some (.low, .high, some {}, [0x48, 0x69]) := by decide
/-- V24b: an invalid second unit. -/
theorem test_decode_V24b : seen 2 (exec (.decodeBuf (from0to16 4 2)) (small .low .low [0x5A, 0xA6, 0, 0])) =
    some (.low, .low, some { status := .invalidSymbolError }, [0, 0]) := by decide
/-- V23a and V25a: an odd length, and an odd length with too little capacity. -/
theorem test_decode_V23a_V25a :
    seen 2 (exec (.decodeBuf (from0to16 3 2)) (small .low .low [0x5A, 0xA6, 0x5A])) =
      some (.low, .low, some { status := .lengthError }, [0, 0]) ∧
    seen 2 (exec (.decodeBuf (from0to16 3 1)) (small .low .low [0x5A, 0xA6, 0x5A])) =
      some (.low, .low, some { status := .capacityError }, [0, 0]) := by decide
/-- V27: DECODE of the second byte on of `enc [0x12, 0x34, 0x56]`. -/
theorem test_lost_boundary_V27 :
    enc [0x12, 0x34, 0x56] = [0x56, 0xAA, 0x5A, 0x56, 0x59, 0x5A] ∧
    seen 2 (exec (.decodeBuf (from0to16 4 2)) (small .low .high [0xAA, 0x5A, 0x56, 0x59])) =
      some (.low, .low, some {}, [0x40, 0x63]) := by decide
/-- V29: concatenation after odd and after even parity. -/
theorem test_concatenation_V29 :
    enc [0x01, 0x74] = [0x55, 0x55, 0xA5, 0x59] ∧ enc [0x03, 0x74] = [0xA9, 0xAA, 0x5A, 0xA6] := by decide

/-! ### Steps and the host's side -/

/-- V32: fresh from reset, ENC.BYTE 0x74 asked by the host. -/
theorem test_step_after_reset_V32 :
    seen 0 (step (State.reset.issue { op := 0b010#3, d := 0x74#8 })) =
      some (.high, .high, some { q := some 0x5AA6#16 }, []) := by decide
theorem test_step_idle : nextOf (step State.reset) = some State.reset := by decide
/-- R20: the result of ENC.BIT is there when it has ended, and not after a step without a request. -/
theorem test_result_not_readable_later : ∃ t u,
    step ((small .high .low []).issue { op := 0b001#3 }) = .next t ∧ t.readSym = .ok 0b01#2 ∧
      step t = .next u ∧ u.readSym = .error .resultHasNoValue ∧ u.readOk = .error .resultHasNoValue :=
  ⟨_, _, rfl, rfl, rfl, rfl, rfl⟩
theorem test_withFetchWord : nextOf (step (State.reset.withFetchWord 8 0b100)) =
    some { State.reset with response := some {} } := by decide
theorem test_status_codes : [Status.ok, .capacityError, .lengthError, .invalidSymbolError].map Status.code =
    [0b00#2, 0b01#2, 0b10#2, 0b11#2] := by decide

/-! ### Each hypothesis of a statement is met by something -/

/-- A good state with a unit on the response ports, and the step from it. -/
theorem witness_StepKeepsInvariant :
    Inv (small .high .low [0x74]) ∧ nextOf (step ((small .high .low [0x74]).issue { op := 0b101#3, s := 0b01#2 })) =
      some { small .high .high [0x74] with response := some { bit := some true } } := by
  refine ⟨⟨by decide, ?_⟩, by decide⟩
  intro r h
  cases h

theorem witness_HostActionsKeepInvariant : Inv State.reset := ⟨by decide, by intro r h; cases h⟩

theorem witness_StepRunsDecodedRequest : (Instr.decUnit 0x5AA6#16).wellFormed = true := by decide

theorem witness_EncBitFollowsTruthTable :
    true = (small .high .low []).encLevel.toBit ∧ true ≠ (small .low .low []).encLevel.toBit := by decide

theorem witness_DecSymRejectsInvalidSymbols : (0b00#2 = 0b00#2 ∨ 0b00#2 = 0b11#2) ∧ (0b11#2 = 0b00#2 ∨ 0b11#2 = 0b11#2) := by
  decide

/-- For BitRoundTripFromEqualLevels (a bit or a stream) and the first half of ByteRoundTripBothWays; at both levels. -/
theorem witness_equal_levels :
    (small .low .low []).encLevel = (small .low .low []).decLevel ∧
    (small .high .high []).encLevel = (small .high .high []).decLevel := by decide

/-- For every statement about a valid unit (SingleBitErrorIsDetected at its last bit, DecUnitDecodesTheEightSlots,
DecUnitBitsAreHalfBitDifferences, DecUnitIsEightDecSyms, ByteRoundTripBothWays, EachValidUnitCodesOneByte,
WrongLevelSpoilsOnlyBitZero, PermissiveDecoderReadsInvalidAs01). -/
theorem witness_valid_unit :
    unitValid 0x5AA6#16 = true ∧ 15 < 16 ∧ (small .high .high []).encLevel = (small .high .high []).decLevel := by decide

/-- V10's 0x5AA7 (slot 0) and 0x1AA6 (slot 14). -/
theorem witness_DecUnitRejectsInvalidUnits :
    (0 ∈ Config.slotOrder ∧ (0x5AA7#16).getLsbD 0 = (0x5AA7#16).getLsbD 1) ∧
    (14 ∈ Config.slotOrder ∧ (0x1AA6#16).getLsbD 14 = (0x1AA6#16).getLsbD 15) := by decide

/-- For EncodeFollowsItsRule (both branches, at the boundary), EncodeStoresUnitsAndNothingElse, EncodeIsStartThenBytes,
EncoderEmitsOnlyValidSymbols, TooSmallCapacityIsRejected and BufferResultsIgnoreHistory: truthful disjoint
launches of ENCODE whose capacity is just enough and just too small, over a canonical memory. -/
theorem witness_encode_launches :
    ((from0to16 2 4).truthful = true ∧ (from0to16 2 4).disjoint = true ∧ 2 * 2 ≤ 4) ∧
    ((from0to16 2 3).truthful = true ∧ (from0to16 2 3).disjoint = true ∧ 3 < 2 * 2) ∧
    (small .low .high [0x74, 0xE4]).mem.wf := by decide

/-- For the statements about DECODE's success (DecodeWritesTheDecodedBytes, DecodeStoresBytesAndNothingElse,
DecodeIsStartThenUnits, PermissiveDecodeTakesAnyUnits): an even, just large enough launch over valid units. -/
theorem witness_decode_success :
    (from0to16 4 2).truthful = true ∧ (from0to16 4 2).disjoint = true ∧ 4 ≤ 2 * 2 ∧ 4 % 2 = 0 ∧
    (small .low .low [0x6A, 0xA5, 0x95, 0xA6]).mem.wf ∧
    ∀ u ∈ loadUnits ((small .low .low [0x6A, 0xA5, 0x95, 0xA6]).mem.readBytes (from0to16 4 2).inp.base 4),
      unitValid u = true :=
  ⟨by decide, by decide, by decide, by decide, by decide, List.all_eq_true.mp (by decide)⟩

/-- For DecodeReportsTheFirstError (each clause, at the boundary of the one before it), TooSmallCapacityIsRejected and
the odd length of PermissiveDecodeTakesAnyUnits. -/
theorem witness_decode_errors :
    ((from0to16 3 1).truthful = true ∧ (from0to16 3 1).disjoint = true ∧ 1 * 2 < 3) ∧
    ((from0to16 3 2).truthful = true ∧ (from0to16 3 2).disjoint = true ∧ 3 ≤ 2 * 2 ∧ 3 % 2 = 1) ∧
    ((from0to16 2 1).truthful = true ∧ (from0to16 2 1).disjoint = true ∧ 2 ≤ 1 * 2 ∧ 2 % 2 = 0 ∧
      ∃ u ∈ loadUnits ((small .low .low [0x5A, 0xA7]).mem.readBytes (from0to16 2 1).inp.base 2), unitValid u = false) :=
  ⟨by decide, by decide, by decide, by decide, by decide, by decide, _, .head _, by decide⟩

/-- For BufferLaunchesRefusedExactly: each length one beyond its buffer, one shared address, adjacent buffers. -/
theorem witness_BufferLaunchesRefusedExactly :
    (from0to16 17 16).inp.size < 17 ∧ (from0to16 2 17).out.size < 17 ∧
    ((⟨⟨0, 8⟩, 5, ⟨4, 16⟩, 16⟩ : Launch).truthful = true ∧ 0 ≤ 4 ∧ 4 < 0 + 5 ∧ 4 ≤ 4 ∧ 4 < 4 + 16) ∧
    (⟨⟨0, 8⟩, 4, ⟨4, 16⟩, 16⟩ : Launch).truthful = true ∧ (⟨⟨0, 8⟩, 4, ⟨4, 16⟩, 16⟩ : Launch).disjoint = true := by
  decide

/-- For BufferRoundTrip: 2 bytes from address 0 to 16 and back to 32; the last buffer may also be the first. -/
theorem witness_BufferRoundTrip :
    (small .low .low [0x74, 0xE4]).mem.wf ∧ 2 ≤ 16 ∧ 4 ≤ 16 ∧ 2 * 2 ≤ 4 ∧ 2 ≤ 2 ∧
    (⟨⟨0, 16⟩, 2, ⟨16, 16⟩, 4⟩ : Launch).disjoint = true ∧
    (⟨⟨16, 16⟩, 2 * 2, ⟨32, 16⟩, 2⟩ : Launch).disjoint = true ∧
    (⟨⟨16, 16⟩, 2 * 2, ⟨0, 16⟩, 2⟩ : Launch).disjoint = true := by decide

/-- For SequenceRoundTripBothWays and EncodeDoublesAndDecodeHalves. -/
theorem witness_valid_sequence :
    ([0x5A, 0xA6, 0x5A, 0x99] : List Byte).length % 2 = 0 ∧
    ∀ u ∈ loadUnits [0x5A, 0xA6, 0x5A, 0x99], unitValid u = true :=
  ⟨by decide, List.all_eq_true.mp (by decide)⟩

/-- For BufferResultsIgnoreHistory: two states that differ in all but the memory. -/
theorem witness_BufferResultsIgnoreHistory :
    (small .low .low [0x74]).mem = ({ small .high .high [0x74] with response := some {} } : State).mem ∧
    (from0to16 1 2).truthful = true ∧ (from0to16 1 2).disjoint = true := by decide

/-- For ResultsAreFunctionsOfOperands: one byte at address 0 in one memory and at address 1 in another; and an operation
of each half from states that agree on the level of that half only. -/
theorem witness_ResultsAreFunctionsOfOperands :
    ((small .low .low [0x74]).mem.wf ∧ (small .high .high [7, 0x74]).mem.wf ∧
      (⟨⟨0, 16⟩, 1, ⟨16, 16⟩, 2⟩ : Launch).truthful = true ∧ (⟨⟨0, 16⟩, 1, ⟨16, 16⟩, 2⟩ : Launch).disjoint = true ∧
      (⟨⟨1, 1⟩, 1, ⟨2, 2⟩, 2⟩ : Launch).truthful = true ∧ (⟨⟨1, 1⟩, 1, ⟨2, 2⟩, 2⟩ : Launch).disjoint = true ∧
      (small .low .low [0x74]).mem.readBytes 0 1 = (small .high .high [7, 0x74]).mem.readBytes 1 1) ∧
    (launchOf (.encBit true) = none ∧ isEncoderOp (.encBit true) = true ∧
      (small .low .low []).encLevel = (small .low .high [7]).encLevel) ∧
    (launchOf (.decSym 0b11#2) = none ∧ isEncoderOp (.decSym 0b11#2) = false ∧
      (small .low .low []).decLevel = (small .high .low [7]).decLevel) := by decide

/-- The last unit of a two-byte input. -/
theorem witness_DecodeBuildsUnitHighByteFirst : 0 + 1 < (from0to16 2 1).inputLen := by decide

/-- For EveryOperationAnswersItsStatus, EachHalfLeavesTheOther (an operation of each half) and StepKeepsInvariant: operations that end. -/
theorem witness_operation_ends :
    (nextOf (exec (.encByte 0x01#8) (small .high .low []))).isSome = true ∧ isEncoderOp (.encByte 0x01#8) = true ∧
    (nextOf (exec (.decUnit 0x5AA6#16) (small .high .low []))).isSome = true ∧
    isEncoderOp (.decUnit 0x5AA6#16) = false ∧ launchOf (.decUnit 0x5AA6#16) = none := by decide

/-- For ErrorsChangeNothing, OperationAfterErrorIsUnaffected and UndeliveredResultsFault (whose operations that succeed
witness_operation_ends has): an operation that errs. -/
theorem witness_operation_errs :
    ∃ t, exec (.decUnit 0x5AA7#16) (small .high .low [0x11]) = .next t ∧ t.readOk = .ok false := ⟨_, rfl, rfl⟩

/-- For EncoderAndDecoderCommute: ENCODE from 0 to 16 and DECODE from 32 to 48. -/
theorem witness_EncoderAndDecoderCommute :
    (small .low .low [0x74]).mem.wf ∧ isEncoderOp (.encodeBuf (from0to16 2 4)) = true ∧
    isEncoderOp (.decodeBuf ⟨⟨32, 16⟩, 2, ⟨48, 16⟩, 1⟩) = false ∧
    buffersApart (.encodeBuf (from0to16 2 4)) (.decodeBuf ⟨⟨32, 16⟩, 2, ⟨48, 16⟩, 1⟩) ∧
    (nextOf (exec (.encodeBuf (from0to16 2 4)) (small .low .low [0x74]))).isSome = true ∧
    (nextOf (exec (.decodeBuf ⟨⟨32, 16⟩, 2, ⟨48, 16⟩, 1⟩) (small .low .low [0x74]))).isSome = true := by
  refine ⟨by decide, rfl, rfl, ?_, by decide, by decide⟩
  intro l m hl hm
  cases hl
  cases hm
  decide

end Sys2Proof.Tests
end

section
/-! Stored bytes and units (spec/30_encoding.md). -/

namespace Sys2Proof.Proofs.Encoding
open Sys2Proof.Machine

/-- Settles O53: reading the unit joins the two input bytes, joining is concatenation, and each half gives its byte
back. -/
theorem decodeBuildsUnitHighByteFirst : Obligations.DecodeBuildsUnitHighByteFirst := by
  intro la m i h
  have hread : readUnit la m i = .ok (joinBytes (m.read (la.inp.base + i)) (m.read (la.inp.base + (i + 1)))) :=
    readUnit_spec la m i h
  exact ⟨_, hread, joinBytes_eq_append _ _, highByte_joinBytes _ _, lowByte_joinBytes _ _⟩

end Sys2Proof.Proofs.Encoding
end

section
/-! The bit coder (spec/40_bit_coder.md): `EncBit` and `DecBit` case by case, and the next state of ENC.BIT and
DEC.SYM given the value of the function each applies. -/

namespace Sys2Proof.Proofs.BitCoder
open Sys2Proof.Machine

/-! ### The two functions -/

theorem encBit_of_eq_level (b : Bit) (l : Level) (h : b = l.toBit) : encBit b l = (0b10#2, .low) := if_pos h

theorem encBit_of_ne_level (b : Bit) (l : Level) (h : b ≠ l.toBit) : encBit b l = (0b01#2, .high) := if_neg h

theorem decBit_one_zero (l : Level) : decBit 0b10#2 l = .ok (l.toBit, .low) := rfl

theorem decBit_zero_one (l : Level) : decBit 0b01#2 l = .ok (!l.toBit, .high) := rfl

/-- `DecBit` has no value outside its domain, the two valid symbols (R74). -/
theorem decBit_of_invalid (x : Symbol) (l : Level) (h : symbolValid x = false) :
    decBit x l = .error .symbolOutsideDomain := by
  obtain ⟨h10, h01⟩ : x ≠ 0b10#2 ∧ x ≠ 0b01#2 := by simpa [symbolValid] using h
  rw [decBit, if_neg h10, if_neg h01]

theorem symbolValid_of_decBit_ok (x : Symbol) (l : Level) (out : Bit × Level) (h : decBit x l = .ok out) :
    symbolValid x = true := by
  by_contra hx
  rw [decBit_of_invalid x l (Bool.eq_false_of_not_eq_true hx)] at h
  cases h

/-! ### The two operations -/

/-- ENC.BIT delivers the symbol of `EncBit`, keeps its level, and changes nothing else (R73). -/
theorem exec_encBit_of_encBit (b : Bit) (s : State) (x : Symbol) (l : Level) (h : encBit b s.encLevel = (x, l)) :
    exec (.encBit b) s = .next { s with encLevel := l, response := some { sym := some x } } := by
  have hexec : exec (.encBit b) s = returnOk { sym := some (encBit b s.encLevel).1 }
      (s.setEncLevel (encBit b s.encLevel).2) := rfl
  rw [hexec, h]
  rfl

/-- Where `DecBit` has a value, DEC.SYM delivers its bit, keeps its level, and changes nothing else: the strict policy
rejects no such symbol (R75). -/
theorem exec_decSym_of_decBit (x : Symbol) (s : State) (b : Bit) (l : Level) (h : decBit x s.decLevel = .ok (b, l)) :
    exec (.decSym x) s = .next { s with decLevel := l, response := some { bit := some b } } := by
  obtain ⟨-, hrejected⟩ | ⟨out, hexec, hout, -⟩ := decSymUnder_cases .strict x s
  · have hvalid := symbolValid_of_decBit_ok x s.decLevel (b, l) h
    simp [symbolRejected, hvalid] at hrejected
  · obtain rfl : out = (b, l) := Except.ok.inj (hout.symm.trans h)
    exact hexec

/-! ### The statements -/

/-- Settles O12: the two branches of `EncBit`, each carried to the operation's next state. -/
theorem encBitFollowsTruthTable : Obligations.EncBitFollowsTruthTable := by
  intro s b
  constructor
  · intro heq
    exact exec_encBit_of_encBit b s _ _ (encBit_of_eq_level b s.encLevel heq)
  · intro hne
    exact exec_encBit_of_encBit b s _ _ (encBit_of_ne_level b s.encLevel hne)

/-- Settles O14: the two values of `DecBit`, each carried to the operation's next state; the other two symbols are
invalid. -/
theorem decSymFollowsTruthTable : Obligations.DecSymFollowsTruthTable := by
  refine ⟨fun s => ⟨?_, ?_⟩, fun l => ⟨?_, ?_⟩⟩
  · exact exec_decSym_of_decBit _ s _ _ (decBit_one_zero s.decLevel)
  · exact exec_decSym_of_decBit _ s _ _ (decBit_zero_one s.decLevel)
  · exact decBit_of_invalid _ l (by decide)
  · exact decBit_of_invalid _ l (by decide)

end Sys2Proof.Proofs.BitCoder
end

section
/-! The byte coder (spec/41_byte_coder.md): the symbol in each slot of a valid unit, the level before each of the eight
bits, and the next state of ENC.BYTE and DEC.UNIT given the value of the function each applies. -/

namespace Sys2Proof.Proofs.ByteCoder
open Sys2Proof.Machine

/-! ### Slots of a valid unit -/

/-- The slot of the `i`-th symbol is an even position, the lower of a pair of `UnitValid` (R82). -/
theorem symbolSlot_eq_two_mul (i : Nat) : (8 + 2 * i) % 16 = 2 * ((4 + i) % 8) := by omega

/-- The two half-bits of each symbol of a valid unit are complements. -/
theorem firstHalf_of_unitValid (u : CodeUnit) (hu : unitValid u = true) (i : Nat) :
    u.getLsbD ((8 + 2 * i) % 16) = !u.getLsbD ((8 + 2 * i) % 16 + 1) := by
  rw [symbolSlot_eq_two_mul]
  exact unitValid_even u hu _ (Nat.mod_lt _ (by decide))

/-- A symbol of a valid unit is determined by its second half-bit. -/
theorem slotSymbol_of_unitValid (u : CodeUnit) (hu : unitValid u = true) (i : Nat) :
    slotSymbol u ((8 + 2 * i) % 16) =
      BitVec.ofBool (!u.getLsbD ((8 + 2 * i) % 16 + 1)) ++ BitVec.ofBool (u.getLsbD ((8 + 2 * i) % 16 + 1)) := by
  rw [slotSymbol, firstHalf_of_unitValid u hu i]

/-- `DecBit` has a value on each symbol of a valid unit: the change from the level before to the second half-bit, which
is the level after (R74). -/
theorem decBit_slotSymbol_of_unitValid (u : CodeUnit) (hu : unitValid u = true) (i : Nat) (l : Level) :
    decBit (slotSymbol u ((8 + 2 * i) % 16)) l =
      .ok (l.toBit ^^ u.getLsbD ((8 + 2 * i) % 16 + 1), .ofBit (u.getLsbD ((8 + 2 * i) % 16 + 1))) := by
  rw [slotSymbol_of_unitValid u hu i, decBit_halves, if_neg (Bool.not_ne_self _)]

/-! ### The levels between the bits -/

/-- The symbol of `EncBit` by its half-bits: the second is the level after, the first its complement (R72). -/
theorem encBit_symbol_eq_append (b : Bit) (l : Level) :
    (encBit b l).1 = BitVec.ofBool (!(b ^^ l.toBit)) ++ BitVec.ofBool (b ^^ l.toBit) := by
  cases b <;> cases l <;> rfl

/-- The level before bit `i`, as `EncByte` carries it from `l`: `L_i` of R85. -/
def encodedLevel (d : Byte) (l : Level) (i : Nat) : Level := .ofBit (runningParity l.toBit d i)

theorem encodedLevel_zero (d : Byte) (l : Level) : encodedLevel d l 0 = l := Level.ofBit_toBit l

theorem runningParity_succ_eq_xor_encodedLevel (d : Byte) (l : Level) (i : Nat) :
    runningParity l.toBit d (i + 1) = (d.getLsbD i ^^ (encodedLevel d l i).toBit) := by
  rw [encodedLevel, Level.toBit_ofBit, Bool.xor_comm]
  rfl

theorem encodedLevel_succ (d : Byte) (l : Level) (i : Nat) :
    encodedLevel d l (i + 1) = (encBit (d.getLsbD i) (encodedLevel d l i)).2 := by
  rw [encBit_level, ← runningParity_succ_eq_xor_encodedLevel]
  rfl

/-- `EncByte` leaves the level after its eighth bit. -/
theorem encByte_level (d : Byte) (l : Level) : (encByte d l).2 = encodedLevel d l 8 := by
  obtain ⟨-, -, hlevel⟩ := encByte_spec d l
  exact hlevel

/-- The `i`-th slot of `EncByte`'s unit holds the symbol of bit `i` at the level carried to it (R80). -/
theorem slotSymbol_encByte (d : Byte) (l : Level) (i : Nat) (hi : i < 8) :
    slotSymbol (encByte d l).1 ((8 + 2 * i) % 16) = (encBit (d.getLsbD i) (encodedLevel d l i)).1 := by
  obtain ⟨hvalid, hodd, -⟩ := encByte_spec d l
  rw [slotSymbol_of_unitValid _ hvalid i, hodd i hi, runningParity_succ_eq_xor_encodedLevel, encBit_symbol_eq_append]

/-- `DecByte` of a valid unit threads `DecBit` through the eight slots: its bits are theirs, and its level is the one
the eighth leaves (R83). -/
theorem decByte_threads_decBit (u : CodeUnit) (l : Level) (hu : unitValid u = true) :
    ∃ r : Byte, decByteUnder .strict u l = .ok (r, carriedLevel u l 8) ∧
      ∀ k, k < 8 → decBit (slotSymbol u ((8 + 2 * k) % 16)) (carriedLevel u l k) =
        .ok (r.getLsbD k, carriedLevel u l (k + 1)) := by
  obtain ⟨r, hr, hbits⟩ := decByte_valid u l hu
  refine ⟨r, hr, fun k hk => ?_⟩
  rw [decBit_slotSymbol_of_unitValid u hu k, hbits k hk]
  rfl

/-! ### The two operations -/

/-- ENC.BYTE delivers the unit of `EncByte`, keeps its level, and changes nothing else (R81). -/
theorem exec_encByte_of_encByte (d : Byte) (s : State) (q : CodeUnit) (l : Level) (h : encByte d s.encLevel = (q, l)) :
    exec (.encByte d) s = .next { s with encLevel := l, response := some { q := some q } } := by
  have hexec : exec (.encByte d) s = returnOk { q := some (encByte d s.encLevel).1 }
      (s.setEncLevel (encByte d s.encLevel).2) := rfl
  rw [hexec, h]
  rfl

/-- Where `DecByte` has a value, DEC.UNIT delivers its byte, keeps its level, and changes nothing else: the unit is
valid, so the strict policy does not reject it (R84). -/
theorem exec_decUnit_of_decByte (u : CodeUnit) (s : State) (r : Byte) (l : Level)
    (h : decByteUnder .strict u s.decLevel = .ok (r, l)) :
    exec (.decUnit u) s = .next { s with decLevel := l, response := some { r := some r } } := by
  obtain ⟨-, hrejected⟩ | ⟨out, hexec, hout, -⟩ := decUnitUnder_cases .strict u s
  · have hinvalid : unitValid u = false := by simpa [unitRejected] using hrejected
    rw [decByte_invalid u s.decLevel hinvalid] at h
    cases h
  · obtain rfl : out = (r, l) := Except.ok.inj (hout.symm.trans h)
    exact hexec

/-! ### The statements -/

/-- Settles O17: the levels are the running parities from the level before, each the level of `EncBit` on the one before
it, and each slot holds the symbol of that `EncBit`. -/
theorem encBytePlacesTheEightSymbols : Obligations.EncBytePlacesTheEightSymbols := by
  intro s d
  refine ⟨(encByte d s.encLevel).1, encodedLevel d s.encLevel, encodedLevel_zero d s.encLevel, fun i hi => ⟨?_, ?_⟩, ?_⟩
  · exact slotSymbol_encByte d s.encLevel i hi
  · exact encodedLevel_succ d s.encLevel i
  · exact exec_encByte_of_encByte d s _ _ (Prod.ext rfl (encByte_level d s.encLevel))

/-- Settles O25: the levels are those `DecByte` carries, each the second half-bit of the slot before. -/
theorem decUnitDecodesTheEightSlots : Obligations.DecUnitDecodesTheEightSlots := by
  intro s u hu
  obtain ⟨r, hr, hbits⟩ := decByte_threads_decBit u s.decLevel hu
  exact ⟨r, carriedLevel u s.decLevel, rfl, hbits, exec_decUnit_of_decByte u s r _ hr⟩

end Sys2Proof.Proofs.ByteCoder
end

section
/-! Outcomes and runs of operations: what the host reads from a response that has just been delivered
(spec/92_eei_decisions.md D15), and a run that begins with an operation that ends (spec/30_encoding.md R64). -/

namespace Sys2Proof.Proofs.Outcomes
open Sys2Proof.Machine

/-- While a response stands, `ok` reads as its own. -/
theorem readOk_of_response (s : State) (r : Response) (h : s.response = some r) : s.readOk = .ok r.ok := by
  simp [State.readOk, resultOf, h]

/-- What `ok` reads as depends on the response alone. -/
theorem readOk_congr (s t : State) (h : t.response = s.response) : t.readOk = s.readOk := by
  rw [State.readOk, resultOf, h]
  rfl

/-- The response of an error does not read as `ok` (R120). -/
theorem readOk_error_ne_true (s : State) (e : Status) (he : e ≠ .ok) :
    (s.setResponse { status := e }).readOk ≠ .ok true := by
  rw [readOk_of_response _ _ (State.setResponse_response _ _)]
  cases e with
  | ok => exact absurd rfl he
  | capacityError | lengthError | invalidSymbolError => simp [Response.ok, Status.code]

theorem runOps_cons_of_exec (i : Instr) (is : List Instr) (s t u : State) (rs : List (Option Response))
    (hexec : exec i s = .next t) (hrest : runOps is t = some (u, rs)) :
    runOps (i :: is) s = some (u, t.response :: rs) := by
  simp [runOps, hexec, hrest]

end Sys2Proof.Proofs.Outcomes
end

section
/-! The buffer coder (spec/42_buffer_coder.md): the next state of ENCODE and DECODE for each outcome of their checks,
and the status, level and output bytes of both as functions of the input bytes and the capacity. -/

namespace Sys2Proof.Proofs.BufferCoder
open Sys2Proof.Machine Sys2Proof.Proofs.Outcomes

/-! ### Byte and unit sequences -/

theorem length_enc (ds : List Byte) : (enc ds).length = 2 * ds.length := by
  rw [enc, length_storeUnits, length_encodeUnits]

theorem length_loadUnits (bs : List Byte) : (loadUnits bs).length = bs.length / 2 := by
  induction bs using loadUnits.induct with
  | case1 hi lo rest ih => rw [loadUnits_cons_cons, List.length_cons, List.length_cons, List.length_cons, ih]; omega
  | case2 bs hne =>
    rcases bs with _ | ⟨x, _ | ⟨y, bs⟩⟩
    · rfl
    · simp [loadUnits]
    · exact absurd rfl (hne x y bs)

/-- Every unit of a coded sequence is valid, from either level (R104). -/
theorem unitValid_of_mem_encodeUnits (l : Level) (ds : List Byte) :
    ∀ u ∈ (encodeUnits l ds).1, unitValid u = true := by
  induction ds generalizing l with
  | nil => simp
  | cons d ds ih =>
    obtain ⟨hvalid, -, -⟩ := encByte_spec d l
    rw [encodeUnits_cons]
    exact List.forall_mem_cons.2 ⟨hvalid, ih (encByte d l).2⟩

/-- The strict policy rejects no unit of a sequence exactly when all are valid. -/
theorem all_not_unitRejected_strict (us : List CodeUnit) :
    (us.all fun u => !unitRejected .strict u) = us.all unitValid := by
  simp [unitRejected]

/-! ### The outcomes of ENCODE -/

section
variable (s : State) (l : Launch) (ht : l.truthful = true) (hd : l.disjoint = true)
include ht hd

theorem exec_encodeBuf_of_too_small (h : l.outputCapacity < 2 * l.inputLen) :
    exec (.encodeBuf l) s = .next (s.setResponse { status := .capacityError }) := by
  have heq := execEncodeBuf_eq l s ((launchRefusal_eq_none l).2 ⟨ht, hd⟩)
  rw [if_pos (by omega)] at heq
  exact heq

theorem exec_encodeBuf_of_fits (h : 2 * l.inputLen ≤ l.outputCapacity) :
    exec (.encodeBuf l) s =
      .next (((s.setMem (s.mem.writeBytes l.out.base (enc (s.mem.readBytes l.inp.base l.inputLen)))).setEncLevel
        (encodeUnits .high (s.mem.readBytes l.inp.base l.inputLen)).2).setResponse {}) := by
  have heq := execEncodeBuf_eq l s ((launchRefusal_eq_none l).2 ⟨ht, hd⟩)
  rw [if_neg (by omega)] at heq
  exact heq

/-! ### The outcomes of DECODE -/

theorem exec_decodeBuf_of_too_small (h : 2 * l.outputCapacity < l.inputLen) :
    exec (.decodeBuf l) s = .next (s.setResponse { status := .capacityError }) := by
  have heq := decodeBufUnder_eq .strict l s ((launchRefusal_eq_none l).2 ⟨ht, hd⟩)
  rw [if_pos (by omega)] at heq
  exact heq

theorem exec_decodeBuf_of_odd (h : l.inputLen ≤ 2 * l.outputCapacity) (hodd : l.inputLen % 2 = 1) :
    exec (.decodeBuf l) s = .next (s.setResponse { status := .lengthError }) := by
  have heq := decodeBufUnder_eq .strict l s ((launchRefusal_eq_none l).2 ⟨ht, hd⟩)
  rw [if_neg (by omega), if_pos hodd] at heq
  exact heq

theorem exec_decodeBuf_of_invalid (h : l.inputLen ≤ 2 * l.outputCapacity) (heven : l.inputLen % 2 ≠ 1)
    (hinvalid : (loadUnits (s.mem.readBytes l.inp.base l.inputLen)).all unitValid = false) :
    exec (.decodeBuf l) s = .next (s.setResponse { status := .invalidSymbolError }) := by
  have heq := decodeBufUnder_eq .strict l s ((launchRefusal_eq_none l).2 ⟨ht, hd⟩)
  rw [if_neg (by omega), if_neg heven, all_not_unitRejected_strict, if_neg (by simp [hinvalid])] at heq
  exact heq

theorem exec_decodeBuf_of_valid (h : l.inputLen ≤ 2 * l.outputCapacity) (heven : l.inputLen % 2 ≠ 1)
    (hvalid : (loadUnits (s.mem.readBytes l.inp.base l.inputLen)).all unitValid = true) :
    ∃ rs lev, decodeUnits .strict .high (loadUnits (s.mem.readBytes l.inp.base l.inputLen)) = .ok (rs, lev) ∧
      rs.length = l.inputLen / 2 ∧
      exec (.decodeBuf l) s =
        .next (((s.setMem (s.mem.writeBytes l.out.base rs)).setDecLevel lev).setResponse {}) := by
  obtain ⟨rs, lev, hrs, hlen⟩ := decodeUnits_ok .strict .high (loadUnits (s.mem.readBytes l.inp.base l.inputLen))
    fun u hu => by simpa [unitRejected] using List.all_eq_true.1 hvalid u hu
  have heq := decodeBufUnder_eq .strict l s ((launchRefusal_eq_none l).2 ⟨ht, hd⟩)
  rw [if_neg (by omega), if_neg heven, all_not_unitRejected_strict, if_pos hvalid, hrs] at heq
  rw [length_loadUnits, Memory.length_readBytes] at hlen
  exact ⟨rs, lev, hrs, hlen, heq⟩

end

/-! ### The results as functions of the input bytes and the capacity -/

/-- The status of ENCODE of the bytes `ds` into a given capacity (R90). -/
def encodeStatus (capacity : Nat) (ds : List Byte) : Status :=
  if capacity < 2 * ds.length then .capacityError else .ok

/-- The status of DECODE of the stored bytes `es` into a given capacity: the first check that fails (R91, R125). -/
def decodeStatus (capacity : Nat) (es : List Byte) : Status :=
  if 2 * capacity < es.length then .capacityError
  else if es.length % 2 = 1 then .lengthError
  else if (loadUnits es).all unitValid then .ok
  else .invalidSymbolError

section
variable (s : State) (l : Launch) (hwf : s.mem.wf) (ht : l.truthful = true) (hd : l.disjoint = true)
include hwf ht hd

/-- ENCODE answers `encodeStatus`, and on success leaves the level and the output bytes of coding its input bytes from
High: nothing else of the state enters its results (R102). -/
theorem encodeBuf_results : ∃ t, exec (.encodeBuf l) s = .next t ∧
    t.response = some { status := encodeStatus l.outputCapacity (s.mem.readBytes l.inp.base l.inputLen) } ∧
    (t.readOk = .ok true →
      t.encLevel = (encodeUnits .high (s.mem.readBytes l.inp.base l.inputLen)).2 ∧
      t.mem.readBytes l.out.base (2 * l.inputLen) = enc (s.mem.readBytes l.inp.base l.inputLen)) := by
  rw [encodeStatus, Memory.length_readBytes]
  split_ifs with hsmall
  · exact ⟨_, exec_encodeBuf_of_too_small s l ht hd hsmall, rfl,
      fun hok => absurd hok (readOk_error_ne_true s _ (by decide))⟩
  · refine ⟨_, exec_encodeBuf_of_fits s l ht hd (by omega), rfl, fun _ => ⟨rfl, ?_⟩⟩
    have hread := Memory.readBytes_writeBytes s.mem l.out.base (enc (s.mem.readBytes l.inp.base l.inputLen)) hwf
    rwa [length_enc, Memory.length_readBytes] at hread

/-- DECODE answers `decodeStatus`, and on success leaves the level and the output bytes of decoding its input's units
from High: nothing else of the state enters its results (R102). -/
theorem decodeBuf_results : ∃ t, exec (.decodeBuf l) s = .next t ∧
    t.response = some { status := decodeStatus l.outputCapacity (s.mem.readBytes l.inp.base l.inputLen) } ∧
    (t.readOk = .ok true →
      decodeUnits .strict .high (loadUnits (s.mem.readBytes l.inp.base l.inputLen)) =
        .ok (t.mem.readBytes l.out.base (l.inputLen / 2), t.decLevel)) := by
  rw [decodeStatus, Memory.length_readBytes]
  split_ifs with hsmall hodd hvalid
  · exact ⟨_, exec_decodeBuf_of_too_small s l ht hd hsmall, rfl,
      fun hok => absurd hok (readOk_error_ne_true s _ (by decide))⟩
  · exact ⟨_, exec_decodeBuf_of_odd s l ht hd (by omega) hodd, rfl,
      fun hok => absurd hok (readOk_error_ne_true s _ (by decide))⟩
  · obtain ⟨rs, lev, hrs, hlen, hexec⟩ := exec_decodeBuf_of_valid s l ht hd (by omega) hodd hvalid
    have hread := Memory.readBytes_writeBytes s.mem l.out.base rs hwf
    rw [hlen] at hread
    exact ⟨_, hexec, rfl, fun _ => by rw [hrs]; simp [hread]⟩
  · exact ⟨_, exec_decodeBuf_of_invalid s l ht hd (by omega) hodd (by simpa using hvalid), rfl,
      fun hok => absurd hok (readOk_error_ne_true s _ (by decide))⟩

end

end Sys2Proof.Proofs.BufferCoder
end

section
/-! The laws (spec/43_laws.md): the bit round trip and streams of symbols, validity of all the encoder emits, the
rejection of too small a capacity, and the results as functions of the operands. -/

namespace Sys2Proof.Proofs.Laws
open Sys2Proof.Machine Sys2Proof.Proofs.Outcomes Sys2Proof.Proofs.BitCoder Sys2Proof.Proofs.ByteCoder
  Sys2Proof.Proofs.BufferCoder

/-! ### Symbols and their streams -/

/-- The symbol a bit codes to decodes, from the level before, to the bit and the level after (R105). -/
theorem decBit_encBit (b : Bit) (l : Level) : decBit (encBit b l).1 l = .ok (b, (encBit b l).2) := by
  by_cases h : b = l.toBit
  · rw [encBit_of_eq_level b l h, decBit_one_zero, h]
  · rw [encBit_of_ne_level b l h, decBit_zero_one, Bool.eq_not_of_ne h]

/-- From the level after, the symbol a bit codes to decodes to 0: its second half-bit is that level (R105's remark). -/
theorem decBit_encBit_level_after (b : Bit) (l : Level) :
    decBit (encBit b l).1 (encBit b l).2 = .ok (false, (encBit b l).2) := by
  by_cases h : b = l.toBit
  · rw [encBit_of_eq_level b l h]; rfl
  · rw [encBit_of_ne_level b l h]; rfl

theorem encBit_symbol_eq (b : Bit) (l : Level) : (encBit b l).1 = 0b01#2 ∨ (encBit b l).1 = 0b10#2 := by
  by_cases h : b = l.toBit
  · exact .inr (by rw [encBit_of_eq_level b l h])
  · exact .inl (by rw [encBit_of_ne_level b l h])

/-- The symbols of a bit sequence coded from a level, and the level after the last. -/
def encodeBits (l : Level) (bs : List Bit) : List Symbol × Level :=
  match bs with
  | [] => ([], l)
  | b :: rest => ((encBit b l).1 :: (encodeBits (encBit b l).2 rest).1, (encodeBits (encBit b l).2 rest).2)

theorem encodeBits_cons (l : Level) (b : Bit) (bs : List Bit) :
    encodeBits l (b :: bs) =
      ((encBit b l).1 :: (encodeBits (encBit b l).2 bs).1, (encodeBits (encBit b l).2 bs).2) := rfl

theorem length_encodeBits (l : Level) (bs : List Bit) : (encodeBits l bs).1.length = bs.length := by
  induction bs generalizing l with
  | nil => rfl
  | cons b bs ih => rw [encodeBits_cons, List.length_cons, List.length_cons, ih]

/-- ENC.BIT issued for each bit of a sequence emits its symbols, and leaves the decoder's level alone. -/
theorem runOps_encBit (bs : List Bit) (s : State) : ∃ t,
    runOps (bs.map .encBit) s = some (t, (encodeBits s.encLevel bs).1.map fun x => some { sym := some x }) ∧
      t.encLevel = (encodeBits s.encLevel bs).2 ∧ t.decLevel = s.decLevel := by
  induction bs generalizing s with
  | nil => exact ⟨s, rfl, rfl, rfl⟩
  | cons b bs ih =>
    have hexec := exec_encBit_of_encBit b s _ _ rfl
    obtain ⟨t, hrun, henc, hdec⟩ := ih _
    exact ⟨t, runOps_cons_of_exec _ _ _ _ _ _ hexec hrun, henc, hdec⟩

/-- DEC.SYM issued for each symbol of a coded sequence, from the level its coding began at, delivers the bits and ends
at the level the coding ended at; the encoder's level is left alone. -/
theorem runOps_decSym_encodeBits (bs : List Bit) (s : State) : ∃ t,
    runOps ((encodeBits s.decLevel bs).1.map .decSym) s = some (t, bs.map fun b => some { bit := some b }) ∧
      t.decLevel = (encodeBits s.decLevel bs).2 ∧ t.encLevel = s.encLevel := by
  induction bs generalizing s with
  | nil => exact ⟨s, rfl, rfl, rfl⟩
  | cons b bs ih =>
    have hexec := exec_decSym_of_decBit _ s _ _ (decBit_encBit b s.decLevel)
    obtain ⟨t, hrun, hdec, henc⟩ := ih { s with
      decLevel := (encBit b s.decLevel).2, response := some { bit := some b } }
    exact ⟨t, runOps_cons_of_exec _ _ _ _ _ _ hexec hrun, hdec, henc⟩

/-! ### The six small operations -/

/-- The level register of the operation's half (R60). -/
def halfLevel (i : Instr) (s : State) : Level := if isEncoderOp i then s.encLevel else s.decLevel

theorem exec_decSym_of_invalid (x : Symbol) (s : State) (h : symbolValid x = false) :
    exec (.decSym x) s = .next (s.setResponse { status := .invalidSymbolError }) := by
  have hrejected : symbolRejected .strict x = true := by simp [symbolRejected, h]
  obtain ⟨hexec, -⟩ | ⟨-, -, -, haccepted⟩ := decSymUnder_cases .strict x s
  · exact hexec
  · rw [hrejected] at haccepted; cases haccepted

theorem exec_decUnit_of_invalid (u : CodeUnit) (s : State) (h : unitValid u = false) :
    exec (.decUnit u) s = .next (s.setResponse { status := .invalidSymbolError }) := by
  have hrejected : unitRejected .strict u = true := by simp [unitRejected, h]
  obtain ⟨hexec, -⟩ | ⟨-, -, -, haccepted⟩ := decUnitUnder_cases .strict u s
  · exact hexec
  · rw [hrejected] at haccepted; cases haccepted

theorem decBit_of_valid (x : Symbol) (l : Level) (h : symbolValid x = true) : ∃ out, decBit x l = .ok out := by
  obtain rfl | rfl : x = 0b10#2 ∨ x = 0b01#2 := by simpa [symbolValid] using h
  · exact ⟨_, decBit_one_zero l⟩
  · exact ⟨_, decBit_zero_one l⟩

/-- An operation without buffers, started with the level register of its half at `k`, answers a response and leaves a
level in that register that depend on its operand and `k` alone (R102). -/
theorem smallOp_results (i : Instr) (hi : launchOf i = none) (k : Level) : ∃ r k', ∀ s, halfLevel i s = k →
    ∃ t, exec i s = .next t ∧ t.response = some r ∧ halfLevel i t = k' := by
  cases i with
  | encStart => exact ⟨{}, .high, fun s _ => ⟨_, rfl, rfl, rfl⟩⟩
  | decStart => exact ⟨{}, .high, fun s _ => ⟨_, rfl, rfl, rfl⟩⟩
  | encBit b =>
    refine ⟨{ sym := some (encBit b k).1 }, (encBit b k).2, ?_⟩
    rintro s rfl
    exact ⟨_, exec_encBit_of_encBit b s _ _ rfl, rfl, rfl⟩
  | encByte d =>
    refine ⟨{ q := some (encByte d k).1 }, (encByte d k).2, ?_⟩
    rintro s rfl
    exact ⟨_, exec_encByte_of_encByte d s _ _ rfl, rfl, rfl⟩
  | decSym x =>
    cases hx : symbolValid x with
    | false => exact ⟨_, k, fun s hs => ⟨_, exec_decSym_of_invalid x s hx, rfl, hs⟩⟩
    | true =>
      obtain ⟨⟨b, k'⟩, hdec⟩ := decBit_of_valid x k hx
      refine ⟨{ bit := some b }, k', ?_⟩
      rintro s rfl
      exact ⟨_, exec_decSym_of_decBit x s b k' hdec, rfl, rfl⟩
  | decUnit u =>
    cases hu : unitValid u with
    | false => exact ⟨_, k, fun s hs => ⟨_, exec_decUnit_of_invalid u s hu, rfl, hs⟩⟩
    | true =>
      obtain ⟨b, hdec, -⟩ := decByte_valid u k hu
      refine ⟨{ r := some b }, .ofBit (u.getLsbD 7), ?_⟩
      rintro s rfl
      exact ⟨_, exec_decUnit_of_decByte u s b _ hdec, rfl, rfl⟩
  | encodeBuf l => cases hi
  | decodeBuf l => cases hi

/-! ### The statements -/

/-- Settles O16: `DecBit` inverts `EncBit` from the level before, along a stream by induction, and gives 0 from the
level after. -/
theorem bitRoundTripFromEqualLevels : Obligations.BitRoundTripFromEqualLevels := by
  refine ⟨fun s b heq => ?_, fun bs s heq => ?_, fun s b => ?_⟩
  · have hdec := decBit_encBit b s.encLevel
    exact ⟨_, (encBit b s.encLevel).1, _, exec_encBit_of_encBit b s _ _ rfl, rfl,
      exec_decSym_of_decBit _ _ _ _ (heq ▸ hdec), rfl, rfl, rfl⟩
  · obtain ⟨t, hrunEnc, hencT, hdecT⟩ := runOps_encBit bs s
    obtain ⟨u, hrunDec, hdecU, hencU⟩ := runOps_decSym_encodeBits bs t
    rw [hdecT, ← heq] at hrunDec hdecU
    exact ⟨t, u, _, length_encodeBits _ _, hrunEnc, hrunDec, hencU, hdecU.trans hencT.symm⟩
  · exact ⟨_, (encBit b s.encLevel).1, _, exec_encBit_of_encBit b s _ _ rfl, rfl,
      exec_decSym_of_decBit _ _ _ _ (decBit_encBit_level_after b s.encLevel), rfl⟩

/-- Settles O22: each symbol of `EncBit` and unit of `EncByte` is valid, and what ENCODE stores loads back as the units
of its input. -/
theorem encoderEmitsOnlyValidSymbols : Obligations.EncoderEmitsOnlyValidSymbols := by
  refine ⟨fun s b => ?_, fun s d => ?_, fun s l hwf ht hd hcap => ?_⟩
  · exact ⟨_, _, exec_encBit_of_encBit b s _ _ rfl, rfl, encBit_symbol_eq b s.encLevel⟩
  · obtain ⟨hvalid, -, -⟩ := encByte_spec d s.encLevel
    exact ⟨_, _, exec_encByte_of_encByte d s _ _ rfl, rfl, hvalid⟩
  · obtain ⟨t, hexec, hresp, hresults⟩ := encodeBuf_results s l hwf ht hd
    have hok : t.readOk = .ok true := by
      rw [readOk_of_response t _ hresp, encodeStatus, Memory.length_readBytes, if_neg (by omega)]
      rfl
    obtain ⟨-, hout⟩ := hresults hok
    refine ⟨t, hexec, hok, ?_⟩
    rw [hout, enc, loadUnits_storeUnits]
    exact unitValid_of_mem_encodeUnits _ _

/-- Settles O40: both operations raise CapacityError, which touches the response only; the two forms of DECODE's test
are arithmetic. -/
theorem tooSmallCapacityIsRejected : Obligations.TooSmallCapacityIsRejected := by
  intro s l ht hd
  refine ⟨fun h => ?_, fun h => ?_, fun heven => ?_, fun hodd => ?_⟩
  · exact ⟨_, exec_encodeBuf_of_too_small s l ht hd h, rfl, rfl⟩
  · exact ⟨_, exec_decodeBuf_of_too_small s l ht hd h, rfl, rfl⟩
  · omega
  · omega

/-- Settles O45: the two launches share input bytes and capacity, so the functions that give the results of the buffer
operations agree on them; a small operation's results are functions of its operand and the level of its half. -/
theorem resultsAreFunctionsOfOperands : Obligations.ResultsAreFunctionsOfOperands := by
  refine ⟨fun s s' l l' hwf hwf' ht hd ht' hd' hlen hcap hbytes => ⟨?_, ?_⟩, fun i s s' hi henc hdec => ?_⟩
  · obtain ⟨t, hexec, hresp, hres⟩ := encodeBuf_results s l hwf ht hd
    obtain ⟨t', hexec', hresp', hres'⟩ := encodeBuf_results s' l' hwf' ht' hd'
    rw [← hbytes, ← hlen] at hres'
    rw [← hbytes, ← hcap, ← hresp] at hresp'
    refine ⟨t, t', hexec, hexec', hresp'.symm, fun hok => ?_⟩
    obtain ⟨hlevel, hout⟩ := hres hok
    obtain ⟨hlevel', hout'⟩ := hres' (readOk_congr t t' hresp' ▸ hok)
    exact ⟨hlevel.trans hlevel'.symm, hout.trans hout'.symm⟩
  · obtain ⟨t, hexec, hresp, hres⟩ := decodeBuf_results s l hwf ht hd
    obtain ⟨t', hexec', hresp', hres'⟩ := decodeBuf_results s' l' hwf' ht' hd'
    rw [← hbytes, ← hlen] at hres'
    rw [← hbytes, ← hcap, ← hresp] at hresp'
    refine ⟨t, t', hexec, hexec', hresp'.symm, fun hok => ?_⟩
    have hout := (hres hok).symm.trans (hres' (readOk_congr t t' hresp' ▸ hok))
    obtain ⟨hout, hlevel⟩ := Prod.mk.inj (Except.ok.inj hout)
    exact ⟨hlevel, hout⟩
  · have hlevel : halfLevel i s' = halfLevel i s := by
      unfold halfLevel
      split
      next h => exact (henc h).symm
      next h => exact (hdec (Bool.eq_false_of_not_eq_true h)).symm
    obtain ⟨r, k, hresults⟩ := smallOp_results i hi (halfLevel i s)
    obtain ⟨t, hexec, hresp, ht⟩ := hresults s rfl
    obtain ⟨t', hexec', hresp', ht'⟩ := hresults s' hlevel
    have hsame : halfLevel i t = halfLevel i t' := ht.trans ht'.symm
    exact ⟨t, t', hexec, hexec', hresp.trans hresp'.symm, fun h => by simpa [halfLevel, h] using hsame,
      fun h => by simpa [halfLevel, h] using hsame⟩

end Sys2Proof.Proofs.Laws
end

section
/-! Requests (spec/30_encoding.md R60, R62, spec/92_eei_decisions.md D15) and the step that performs the first of them
(spec/70_reset_and_hazards.md R142). -/

namespace Sys2Proof.Proofs.Requests
open Sys2Proof.Machine

/-! ### The decoder -/

/-- The decoder changes no bit of the op-select code (R60). -/
theorem opSelect_decode (r : Request) : (decode r).opSelect = r.op := by
  have hcode : r.op = BitVec.ofBool (r.op.getLsbD 2) ++ BitVec.ofBool (r.op.getLsbD 1) ++
      BitVec.ofBool (r.op.getLsbD 0) := by
    generalize r.op = op
    revert op
    decide
  rw [hcode, decode]
  cases r.op.getLsbD 2 <;> cases r.op.getLsbD 1 <;> cases r.op.getLsbD 0 <;> rfl

/-- A request carries the operation the decoder reads from it: each operand is read from its own port. -/
theorem carries_decode (r : Request) : r.carries (decode r) := by
  refine ⟨(opSelect_decode r).symm, ?_⟩
  rw [decode]
  cases r.op.getLsbD 2 <;> cases r.op.getLsbD 1 <;> cases r.op.getLsbD 0 <;> simp [Request.launch]

/-- The decoder reads no port but the op-select code and the operands of its operation (D15). -/
theorem decode_of_carries (r : Request) (i : Instr) (h : r.carries i) : decode r = i := by
  obtain ⟨hop, hports⟩ := h
  cases i with
  | encStart | decStart => simp [decode, hop, Instr.opSelect]
  | encBit b | encByte d | decSym x | decUnit u =>
    simp only at hports
    simp [decode, hop, Instr.opSelect, hports]
  | encodeBuf l | decodeBuf l =>
    obtain ⟨hinp, hlen, hout, hcap⟩ := hports
    simp [decode, hop, Instr.opSelect, Request.launch, hinp, hlen, hout, hcap]

theorem carries_encode (i : Instr) : (encode i).carries i := by
  cases i <;> simp [encode, Request.carries]

theorem decode_encode (i : Instr) : decode (encode i) = i := decode_of_carries _ _ (carries_encode i)

/-! ### The statements -/

/-- Settles O8: a request carries what the decoder reads from it, and the decoder reads nothing but what it carries. -/
theorem decodeReadsExactlyTheCarriedOperation : Obligations.DecodeReadsExactlyTheCarriedOperation := by
  refine ⟨fun r i => ⟨?_, decode_of_carries r i⟩, decode_encode⟩
  rintro rfl
  exact carries_decode r

/-- Settles O7: the request at the head is decoded and performed; the encoder's request decodes to its operation. -/
theorem stepRunsDecodedRequest : Obligations.StepRunsDecodedRequest := by
  intro s rest
  have hstep : ∀ r, step (s.setRequests (r :: rest)) = exec (decode r) (s.setRequests rest) := fun _ => rfl
  exact ⟨hstep, fun i _ => by rw [hstep, decode_encode], rfl⟩

/-- Settles O9: each code written out, and a word of two bits. -/
theorem opSelectWordsDecode : Obligations.OpSelectWordsDecode :=
  ⟨by decide, by decide, by decide, by decide, by decide, by decide, by decide, by decide, by decide⟩

end Sys2Proof.Proofs.Requests
end

section
/-! The effect of an operation as a function of its operands, the level register of its half and its input bytes, and of
nothing else: what it answers, the level it leaves, the bytes it writes. `exec_of_accepted` says once that `exec` is
that effect, carried out; the statements about all operations are read off it. -/

namespace Sys2Proof.Proofs.Effects
open Sys2Proof.Machine Sys2Proof.Proofs.Outcomes Sys2Proof.Proofs.BitCoder Sys2Proof.Proofs.ByteCoder
  Sys2Proof.Proofs.BufferCoder Sys2Proof.Proofs.Laws

/-! ### What an operation reads and where it writes -/

/-- The bytes an operation reads: the input of a buffer operation (R30). -/
def inputBytes (i : Instr) (m : Memory) : List Byte :=
  match launchOf i with
  | none => []
  | some l => m.readBytes l.inp.base l.inputLen

/-- The address an operation writes from: the output of a buffer operation (R31). -/
def outputBase (i : Instr) : Nat :=
  match launchOf i with
  | none => 0
  | some l => l.out.base

/-- What the launch of an operation is refused for, if it has one (R42, R150). -/
def refusal (i : Instr) : Option Refusal := (launchOf i).bind launchRefusal

/-- The level register of the operation's half takes a value (R60). -/
def setHalfLevel (i : Instr) (s : State) (k : Level) : State :=
  if isEncoderOp i then s.setEncLevel k else s.setDecLevel k

/-! ### Effects -/

/-- What an operation that ends does: its response, the level it leaves in the register of its half, if it writes one,
and the bytes it writes from the output's offset 0. -/
structure Effect where
  response : Response
  level : Option Level := none
  output : List Byte := []

/-- An error touches the response only (R126). -/
def raised (e : Status) : Effect := { response := { status := e } }

/-- DEC.SYM from a level (R75). -/
def decSymEffect (x : Symbol) (k : Level) : Effect :=
  match decBit x k with
  | .ok out => { response := { bit := some out.1 }, level := some out.2 }
  | .error _ => raised .invalidSymbolError

/-- DEC.UNIT from a level (R84). -/
def decUnitEffect (u : CodeUnit) (k : Level) : Effect :=
  match decByteUnder .strict u k with
  | .ok out => { response := { r := some out.1 }, level := some out.2 }
  | .error _ => raised .invalidSymbolError

/-- ENCODE of the bytes `ds` into a given capacity (R90). -/
def encodeEffect (capacity : Nat) (ds : List Byte) : Effect :=
  if encodeStatus capacity ds = .ok then
    { response := {}, level := some (encodeUnits .high ds).2, output := enc ds }
  else raised (encodeStatus capacity ds)

/-- DECODE of the stored bytes `es` into a given capacity (R91). -/
def decodeEffect (capacity : Nat) (es : List Byte) : Effect :=
  match decodeUnits .strict .high (loadUnits es) with
  | .ok out =>
    if decodeStatus capacity es = .ok then { response := {}, level := some out.2, output := out.1 }
    else raised (decodeStatus capacity es)
  | .error _ => raised (decodeStatus capacity es)

/-- The effect of an operation, given the level register of its half and its input bytes. -/
def effect (i : Instr) (k : Level) (ins : List Byte) : Effect :=
  match i with
  | .encStart | .decStart => { response := {}, level := some .high }
  | .encBit b => { response := { sym := some (encBit b k).1 }, level := some (encBit b k).2 }
  | .encByte d => { response := { q := some (encByte d k).1 }, level := some (encByte d k).2 }
  | .decSym x => decSymEffect x k
  | .decUnit u => decUnitEffect u k
  | .encodeBuf l => encodeEffect l.outputCapacity ins
  | .decodeBuf l => decodeEffect l.outputCapacity ins

/-- The effect carried out on a state. -/
def Effect.apply (e : Effect) (i : Instr) (s : State) : State :=
  ((setHalfLevel i s (e.level.getD (halfLevel i s))).setMem (s.mem.writeBytes (outputBase i) e.output)).setResponse
    e.response

/-- The state in which an operation that is not refused ends. -/
def after (i : Instr) (s : State) : State := (effect i (halfLevel i s) (inputBytes i s.mem)).apply i s

theorem apply_raised (e : Status) (i : Instr) (s : State) : (raised e).apply i s = s.setResponse { status := e } := by
  cases i <;> rfl

/-! ### The effect of each operation, case by case -/

theorem decSymEffect_cases (x : Symbol) (k : Level) :
    (symbolValid x = false ∧ decSymEffect x k = raised .invalidSymbolError) ∨
    ∃ out, decBit x k = .ok out ∧ decSymEffect x k = { response := { bit := some out.1 }, level := some out.2 } := by
  cases hx : symbolValid x with
  | false => exact .inl ⟨rfl, by rw [decSymEffect, decBit_of_invalid x k hx]⟩
  | true =>
    obtain ⟨out, hout⟩ := decBit_of_valid x k hx
    exact .inr ⟨out, hout, by rw [decSymEffect, hout]⟩

theorem decUnitEffect_cases (u : CodeUnit) (k : Level) :
    (unitValid u = false ∧ decUnitEffect u k = raised .invalidSymbolError) ∨
    ∃ out, decByteUnder .strict u k = .ok out ∧
      decUnitEffect u k = { response := { r := some out.1 }, level := some out.2 } := by
  cases hu : unitValid u with
  | false => exact .inl ⟨rfl, by rw [decUnitEffect, decByte_invalid u k hu]⟩
  | true =>
    obtain ⟨r, hr, -⟩ := decByte_valid u k hu
    exact .inr ⟨_, hr, by rw [decUnitEffect, hr]⟩

theorem encodeEffect_cases (capacity : Nat) (ds : List Byte) :
    (capacity < 2 * ds.length ∧ encodeEffect capacity ds = raised .capacityError) ∨
    (2 * ds.length ≤ capacity ∧
      encodeEffect capacity ds = { response := {}, level := some (encodeUnits .high ds).2, output := enc ds }) := by
  by_cases h : capacity < 2 * ds.length
  · exact .inl ⟨h, by simp [encodeEffect, encodeStatus, h]⟩
  · exact .inr ⟨by omega, by simp [encodeEffect, encodeStatus, h]⟩

/-- The last check of DECODE passes only on valid units (R91). -/
theorem unitValid_of_decodeStatus_ok (capacity : Nat) (es : List Byte) (h : decodeStatus capacity es = .ok) :
    es.length ≤ 2 * capacity ∧ es.length % 2 = 0 ∧ (loadUnits es).all unitValid = true := by
  unfold decodeStatus at h
  split_ifs at h with hcap hodd hvalid
  exact ⟨by omega, by omega, hvalid⟩

theorem decodeEffect_cases (capacity : Nat) (es : List Byte) :
    (decodeStatus capacity es ≠ .ok ∧ decodeEffect capacity es = raised (decodeStatus capacity es)) ∨
    (decodeStatus capacity es = .ok ∧ ∃ out, decodeUnits .strict .high (loadUnits es) = .ok out ∧
      out.1.length = (loadUnits es).length ∧
      decodeEffect capacity es = { response := {}, level := some out.2, output := out.1 }) := by
  by_cases h : decodeStatus capacity es = .ok
  · obtain ⟨-, -, hvalid⟩ := unitValid_of_decodeStatus_ok capacity es h
    obtain ⟨rs, k, hrs, hlen⟩ := decodeUnits_ok .strict .high (loadUnits es)
      fun u hu => by simpa [unitRejected] using List.all_eq_true.1 hvalid u hu
    exact .inr ⟨h, _, hrs, hlen, by rw [decodeEffect, hrs]; exact if_pos h⟩
  · refine .inl ⟨h, ?_⟩
    unfold decodeEffect
    split
    · exact if_neg h
    · rfl

/-! ### An operation is its effect -/

theorem exec_of_refused (i : Instr) (s : State) (why : Refusal) (h : refusal i = some why) :
    exec i s = .refused why := by
  cases i with
  | encStart | decStart | encBit b | encByte d | decSym x | decUnit u => cases h
  | encodeBuf l =>
    have hl : launchRefusal l = some why := h
    simp [exec, execEncodeBuf, hl]
  | decodeBuf l =>
    have hl : launchRefusal l = some why := h
    simp [exec, execDecodeBuf, decodeBufUnder, hl]

/-- ENCODE that is not refused carries out `encodeEffect` of its input bytes. -/
theorem exec_encodeBuf_eq_after (l : Launch) (s : State) (ht : l.truthful = true) (hd : l.disjoint = true) :
    exec (.encodeBuf l) s = .next (after (.encodeBuf l) s) := by
  have hlen : (s.mem.readBytes l.inp.base l.inputLen).length = l.inputLen := Memory.length_readBytes _ _ _
  rw [after, effect, inputBytes, launchOf]
  obtain ⟨hsmall, he⟩ | ⟨hfits, he⟩ :=
    encodeEffect_cases l.outputCapacity (s.mem.readBytes l.inp.base l.inputLen)
  · rw [he, apply_raised, exec_encodeBuf_of_too_small s l ht hd (by omega)]
  · rw [he, exec_encodeBuf_of_fits s l ht hd (by omega)]
    rfl

/-- DECODE that is not refused carries out `decodeEffect` of its input bytes. -/
theorem exec_decodeBuf_eq_after (l : Launch) (s : State) (ht : l.truthful = true) (hd : l.disjoint = true) :
    exec (.decodeBuf l) s = .next (after (.decodeBuf l) s) := by
  have hlen : (s.mem.readBytes l.inp.base l.inputLen).length = l.inputLen := Memory.length_readBytes _ _ _
  rw [after, effect, inputBytes, launchOf]
  obtain ⟨hne, he⟩ | ⟨hok, out, hout, -, he⟩ :=
    decodeEffect_cases l.outputCapacity (s.mem.readBytes l.inp.base l.inputLen)
  · rw [he, apply_raised]
    unfold decodeStatus at hne ⊢
    rw [hlen] at hne ⊢
    split_ifs at hne ⊢ with hsmall hodd hvalid
    · exact exec_decodeBuf_of_too_small s l ht hd hsmall
    · exact exec_decodeBuf_of_odd s l ht hd (by omega) hodd
    · exact absurd rfl hne
    · exact exec_decodeBuf_of_invalid s l ht hd (by omega) hodd (by simpa using hvalid)
  · obtain ⟨hcap, heven, hvalid⟩ := unitValid_of_decodeStatus_ok _ _ hok
    obtain ⟨rs, k, hrs, -, hexec⟩ := exec_decodeBuf_of_valid s l ht hd (by omega) (by omega) hvalid
    obtain rfl : out = (rs, k) := Except.ok.inj (hout.symm.trans hrs)
    rw [he, hexec]
    rfl

/-- An operation whose launch is not refused ends, in the state its effect leaves. -/
theorem exec_of_accepted (i : Instr) (s : State) (h : refusal i = none) : exec i s = .next (after i s) := by
  cases i with
  | encStart | decStart | encBit b | encByte d => rfl
  | decSym x =>
    rw [after, effect]
    obtain ⟨hx, he⟩ | ⟨out, hout, he⟩ := decSymEffect_cases x (halfLevel (.decSym x) s)
    · rw [he, apply_raised, exec_decSym_of_invalid x s hx]
    · rw [he, exec_decSym_of_decBit x s out.1 out.2 hout]
      rfl
  | decUnit u =>
    rw [after, effect]
    obtain ⟨hu, he⟩ | ⟨out, hout, he⟩ := decUnitEffect_cases u (halfLevel (.decUnit u) s)
    · rw [he, apply_raised, exec_decUnit_of_invalid u s hu]
    · rw [he, exec_decUnit_of_decByte u s out.1 out.2 hout]
      rfl
  | encodeBuf l =>
    obtain ⟨ht, hd⟩ := (launchRefusal_eq_none l).1 h
    exact exec_encodeBuf_eq_after l s ht hd
  | decodeBuf l =>
    obtain ⟨ht, hd⟩ := (launchRefusal_eq_none l).1 h
    exact exec_decodeBuf_eq_after l s ht hd

/-- An operation ends exactly when it is not refused, and then in the state its effect leaves. -/
theorem exec_eq_next_iff (i : Instr) (s t : State) : exec i s = .next t ↔ refusal i = none ∧ t = after i s := by
  cases h : refusal i with
  | none => simp [exec_of_accepted i s h, eq_comm]
  | some why => simp [exec_of_refused i s why h]

theorem exec_ne_fault (i : Instr) (s : State) (f : Fault) : exec i s ≠ .fault f := by
  cases h : refusal i with
  | none => simp [exec_of_accepted i s h]
  | some why => simp [exec_of_refused i s why h]

end Sys2Proof.Proofs.Effects
end

section
/-! What every operation keeps to (spec/60_exceptions.md, spec/43_laws.md R102): its status and results, errors that
change nothing, halves that leave each other alone, launches that are refused. -/

namespace Sys2Proof.Proofs.Operations
open Sys2Proof.Machine Sys2Proof.Proofs.Outcomes Sys2Proof.Proofs.BufferCoder Sys2Proof.Proofs.Laws
  Sys2Proof.Proofs.Effects

/-! ### Responses -/

/-- The errors an operation can raise (R121, R122, R123). -/
def mayRaise (i : Instr) (e : Status) : Bool :=
  match i, e with
  | .encodeBuf _, .capacityError => true
  | .decSym _, .invalidSymbolError | .decUnit _, .invalidSymbolError => true
  | .decodeBuf _, .capacityError | .decodeBuf _, .lengthError | .decodeBuf _, .invalidSymbolError => true
  | _, _ => false

/-- The responses an operation can give from a level of its half: an error it may raise, no data, or the data result
its rule names (D15). -/
inductive Answers : Instr → Level → Response → Prop where
  | raised (i k e) (h : mayRaise i e = true) : Answers i k { status := e }
  | done (i k) : Answers i k {}
  | sym (b k) : Answers (.encBit b) k { sym := some (encBit b k).1 }
  | bit (x k b) : Answers (.decSym x) k { bit := some b }
  | q (d k) : Answers (.encByte d) k { q := some (encByte d k).1 }
  | r (u k b) : Answers (.decUnit u) k { r := some b }

theorem mayRaise_decodeStatus (l : Launch) (es : List Byte) (h : decodeStatus l.outputCapacity es ≠ .ok) :
    mayRaise (.decodeBuf l) (decodeStatus l.outputCapacity es) = true := by
  cases he : decodeStatus l.outputCapacity es with
  | ok => exact absurd he h
  | capacityError | lengthError | invalidSymbolError => rfl

/-- Only a buffer operation writes memory, and within its capacity (R31, R38). -/
def writesWithin (i : Instr) (e : Effect) : Prop :=
  e.output = [] ∨ ∃ l, launchOf i = some l ∧ e.output.length ≤ l.outputCapacity

/-- Every effect is that of an error the operation may raise, or is `ok`, answers what its rule names, writes the level
of its half and stays within its output. -/
theorem effect_cases (i : Instr) (k : Level) (ins : List Byte) :
    (∃ e, mayRaise i e = true ∧ effect i k ins = raised e) ∨
    (Answers i k (effect i k ins).response ∧ (effect i k ins).response.ok = true ∧
      (∃ k', (effect i k ins).level = some k') ∧ writesWithin i (effect i k ins)) := by
  rw [effect.eq_def]
  cases i with
  | encStart | decStart => exact .inr ⟨.done _ _, rfl, ⟨_, rfl⟩, .inl rfl⟩
  | encBit b => exact .inr ⟨.sym b k, rfl, ⟨_, rfl⟩, .inl rfl⟩
  | encByte d => exact .inr ⟨.q d k, rfl, ⟨_, rfl⟩, .inl rfl⟩
  | decSym x =>
    obtain ⟨-, he⟩ | ⟨out, -, he⟩ := decSymEffect_cases x k
    · exact .inl ⟨_, rfl, he⟩
    · simp only [he]
      exact .inr ⟨.bit x k _, rfl, ⟨_, rfl⟩, .inl rfl⟩
  | decUnit u =>
    obtain ⟨-, he⟩ | ⟨out, -, he⟩ := decUnitEffect_cases u k
    · exact .inl ⟨_, rfl, he⟩
    · simp only [he]
      exact .inr ⟨.r u k _, rfl, ⟨_, rfl⟩, .inl rfl⟩
  | encodeBuf l =>
    obtain ⟨-, he⟩ | ⟨hfits, he⟩ := encodeEffect_cases l.outputCapacity ins
    · exact .inl ⟨_, rfl, he⟩
    · simp only [he]
      exact .inr ⟨.done _ _, rfl, ⟨_, rfl⟩, .inr ⟨l, rfl, by rwa [length_enc]⟩⟩
  | decodeBuf l =>
    obtain ⟨hne, he⟩ | ⟨hok, out, -, hlen, he⟩ := decodeEffect_cases l.outputCapacity ins
    · exact .inl ⟨_, mayRaise_decodeStatus l ins hne, he⟩
    · obtain ⟨hcap, -, -⟩ := unitValid_of_decodeStatus_ok l.outputCapacity ins hok
      rw [length_loadUnits] at hlen
      simp only [he]
      exact .inr ⟨.done _ _, rfl, ⟨_, rfl⟩, .inr ⟨l, rfl, by rw [hlen]; omega⟩⟩

theorem answers_effect (i : Instr) (k : Level) (ins : List Byte) : Answers i k (effect i k ins).response := by
  obtain ⟨e, hmay, he⟩ | ⟨hanswers, -, -, -⟩ := effect_cases i k ins
  · rw [he]
    exact .raised i k e hmay
  · exact hanswers

/-- The response of an operation that ends is one of those it can give. -/
theorem answers_of_exec (i : Instr) (s t : State) (h : exec i s = .next t) :
    ∃ r, t.response = some r ∧ Answers i (halfLevel i s) r := by
  obtain ⟨-, rfl⟩ := (exec_eq_next_iff i s t).1 h
  exact ⟨_, rfl, answers_effect i _ _⟩

theorem ok_eq_true_iff (r : Response) : r.ok = true ↔ r.status = .ok := by
  rw [Response.ok]
  cases r.status <;> decide

theorem ok_eq_true_iff_code (r : Response) : r.ok = true ↔ r.status.code = 0b00#2 := by
  rw [Response.ok]
  exact beq_iff_eq

theorem mayRaise_ok (i : Instr) : mayRaise i .ok = false := by cases i <;> rfl

theorem ok_of_mayRaise (i : Instr) (e : Status) (h : mayRaise i e = true) :
    ({ status := e } : Response).ok = false := by
  cases e with
  | ok => rw [mayRaise_ok] at h; cases h
  | capacityError | lengthError | invalidSymbolError => rfl

/-- No data beside an error, and one data result at most (D15, U6). -/
theorem dataResults_of_answers (i : Instr) (k : Level) (r : Response) (h : Answers i k r) :
    (r.ok = false → r.dataResults = 0) ∧ r.dataResults ≤ 1 := by
  cases h with
  | raised | done => exact ⟨fun _ => rfl, Nat.zero_le 1⟩
  | sym | bit | q | r => exact ⟨nofun, Nat.le_refl 1⟩

theorem exists_decodeBuf_of_lengthError (i : Instr) (h : mayRaise i .lengthError = true) : ∃ l, i = .decodeBuf l := by
  cases i with
  | decodeBuf l => exact ⟨l, rfl⟩
  | _ => cases h

theorem exists_launch_of_capacityError (i : Instr) (h : mayRaise i .capacityError = true) :
    ∃ l, i = .encodeBuf l ∨ i = .decodeBuf l := by
  cases i with
  | encodeBuf l => exact ⟨l, .inl rfl⟩
  | decodeBuf l => exact ⟨l, .inr rfl⟩
  | _ => cases h

/-- The two STARTs, ENC.BIT and ENC.BYTE have no error to raise. -/
theorem mayRaise_eq_false (i : Instr) (e : Status)
    (h : i = .encStart ∨ i = .decStart ∨ (∃ b, i = .encBit b) ∨ ∃ d, i = .encByte d) : mayRaise i e = false := by
  obtain rfl | rfl | ⟨b, rfl⟩ | ⟨d, rfl⟩ := h <;> rfl

/-- Settles O55: a response an operation can give is an error it may raise, or `ok` with at most the data result it
names. -/
theorem everyOperationAnswersItsStatus : Obligations.EveryOperationAnswersItsStatus := by
  intro i s t hexec
  obtain ⟨r, hresp, hanswers⟩ := answers_of_exec i s t hexec
  obtain ⟨hnone, hone⟩ := dataResults_of_answers i _ r hanswers
  refine ⟨r, hresp, ok_eq_true_iff r, ok_eq_true_iff_code r, hnone, hone, ?_⟩
  cases hanswers with
  | raised _ _ e hmay =>
    refine ⟨fun hi => ?_, fun he => ?_, fun he => ?_⟩
    · rw [mayRaise_eq_false i e hi] at hmay
      cases hmay
    · exact exists_decodeBuf_of_lengthError i (he ▸ hmay)
    · exact exists_launch_of_capacityError i (he ▸ hmay)
  | done | sym | bit | q | r => exact ⟨fun _ => rfl, nofun, nofun⟩

/-! ### Reading results -/

/-- A result that the response on the ports does not hold reads as the fault of U6. -/
theorem resultOf_of_none (α : Type) (s : State) (pick : Response → Option α) (r : Response)
    (hresp : s.response = some r) (h : pick r = none) : resultOf α s pick = .error .resultHasNoValue := by
  simp [resultOf, hresp, h]

/-- With the ports empty every read is the fault of U6. -/
theorem noResults_of_response_none (s : State) (h : s.response = none) : noResults s := by
  refine ⟨?_, ?_, ?_, ?_, ?_, ?_⟩ <;>
    simp [State.readOk, State.readStatus, State.readSym, State.readBit, State.readQ, State.readR, resultOf, h]

/-- No operation reads the response: each overwrites it, and reads nothing else of it. -/
theorem exec_dropResponse (i : Instr) (s : State) : exec i s.dropResponse = exec i s := by cases i <;> rfl

theorem exec_setResponse (i : Instr) (s : State) (r : Response) : exec i (s.setResponse r) = exec i s := by
  have hdrop : (s.setResponse r).dropResponse = s.dropResponse := rfl
  rw [← exec_dropResponse, hdrop, exec_dropResponse]

/-- The four data results of a response an operation can give: each is absent beside an error and from every operation
but its own. -/
theorem data_of_answers (i : Instr) (k : Level) (r : Response) (h : Answers i k r) :
    ((r.ok = false ∨ ∀ b, i ≠ .encBit b) → r.sym = none) ∧ ((r.ok = false ∨ ∀ x, i ≠ .decSym x) → r.bit = none) ∧
    ((r.ok = false ∨ ∀ d, i ≠ .encByte d) → r.q = none) ∧ ((r.ok = false ∨ ∀ u, i ≠ .decUnit u) → r.r = none) := by
  cases h with
  | raised | done => exact ⟨fun _ => rfl, fun _ => rfl, fun _ => rfl, fun _ => rfl⟩
  | sym b => exact ⟨fun h => h.elim nofun fun hne => absurd rfl (hne b), fun _ => rfl, fun _ => rfl, fun _ => rfl⟩
  | bit x => exact ⟨fun _ => rfl, fun h => h.elim nofun fun hne => absurd rfl (hne x), fun _ => rfl, fun _ => rfl⟩
  | q d => exact ⟨fun _ => rfl, fun _ => rfl, fun h => h.elim nofun fun hne => absurd rfl (hne d), fun _ => rfl⟩
  | r u => exact ⟨fun _ => rfl, fun _ => rfl, fun _ => rfl, fun h => h.elim nofun fun hne => absurd rfl (hne u)⟩

/-- Settles O60: a response holds no data result but the operation's own, the idle step and the host's actions leave no
response, and no operation reads one. -/
theorem undeliveredResultsFault : Obligations.UndeliveredResultsFault := by
  refine ⟨fun i s t hexec => ?_, fun s r a v => ⟨?_, ?_, ?_, ?_⟩, exec_dropResponse⟩
  · obtain ⟨r, hresp, hanswers⟩ := answers_of_exec i s t hexec
    obtain ⟨hsym, hbit, hq, hr⟩ := data_of_answers i _ r hanswers
    simp only [readOk_of_response t r hresp, Except.ok.injEq]
    exact ⟨fun h => resultOf_of_none _ t _ r hresp (hsym h), fun h => resultOf_of_none _ t _ r hresp (hbit h),
      fun h => resultOf_of_none _ t _ r hresp (hq h), fun h => resultOf_of_none _ t _ r hresp (hr h)⟩
  · exact ⟨_, rfl, noResults_of_response_none _ rfl⟩
  · exact noResults_of_response_none _ rfl
  · exact noResults_of_response_none _ rfl
  · exact noResults_of_response_none _ rfl

/-! ### Errors -/

theorem readOk_after (i : Instr) (s : State) :
    (after i s).readOk = .ok (effect i (halfLevel i s) (inputBytes i s.mem)).response.ok :=
  readOk_of_response _ _ rfl

/-- An operation that ends with an error leaves the state it found with the response replaced. -/
theorem eq_setResponse_of_error (i : Instr) (s t : State) (hexec : exec i s = .next t) (herr : t.readOk = .ok false) :
    ∃ r, t = s.setResponse r := by
  obtain ⟨-, rfl⟩ := (exec_eq_next_iff i s t).1 hexec
  obtain ⟨e, -, he⟩ | ⟨-, hok, -, -⟩ := effect_cases i (halfLevel i s) (inputBytes i s.mem)
  · exact ⟨_, by rw [after, he, apply_raised]⟩
  · rw [readOk_after, hok] at herr
    cases herr

/-- Settles O56: the state after an error is the one before with another response. -/
theorem errorsChangeNothing : Obligations.ErrorsChangeNothing := by
  intro i s t hexec herr
  obtain ⟨r, rfl⟩ := eq_setResponse_of_error i s t hexec herr
  exact ⟨rfl, rfl, rfl, rfl⟩

/-- Settles O57: the state after an error differs in its response only, which no operation reads. -/
theorem operationAfterErrorIsUnaffected : Obligations.OperationAfterErrorIsUnaffected := by
  intro i j s t hexec herr
  obtain ⟨r, rfl⟩ := eq_setResponse_of_error i s t hexec herr
  exact exec_setResponse j s r

/-! ### The two halves -/

theorem apply_of_encoderOp (e : Effect) (i : Instr) (s : State) (h : isEncoderOp i = true) :
    e.apply i s = { s with
      encLevel := e.level.getD s.encLevel
      mem := s.mem.writeBytes (outputBase i) e.output
      response := some e.response } := by
  rw [Effect.apply, setHalfLevel, halfLevel, if_pos h, if_pos h]
  rfl

theorem apply_of_decoderOp (e : Effect) (i : Instr) (s : State) (h : isEncoderOp i = false) :
    e.apply i s = { s with
      decLevel := e.level.getD s.decLevel
      mem := s.mem.writeBytes (outputBase i) e.output
      response := some e.response } := by
  rw [Effect.apply, setHalfLevel, halfLevel, h]
  rfl

theorem writesWithin_effect (i : Instr) (k : Level) (ins : List Byte) : writesWithin i (effect i k ins) := by
  obtain ⟨e, -, he⟩ | ⟨-, -, -, hwrites⟩ := effect_cases i k ins
  · exact .inl (congrArg Effect.output he)
  · exact hwrites

/-- Settles O58: an effect is carried out on the registers of its own half and on the output of its launch. -/
theorem eachHalfLeavesTheOther : Obligations.EachHalfLeavesTheOther := by
  intro i s t hexec
  obtain ⟨-, rfl⟩ := (exec_eq_next_iff i s t).1 hexec
  have hmem : launchOf i = none → (effect i (halfLevel i s) (inputBytes i s.mem)).output = [] := by
    intro hi
    obtain hnil | ⟨l, hl, -⟩ := writesWithin_effect i (halfLevel i s) (inputBytes i s.mem)
    · exact hnil
    · rw [hi] at hl
      cases hl
  rw [after]
  cases hhalf : isEncoderOp i with
  | true =>
    rw [apply_of_encoderOp _ i s hhalf]
    exact ⟨fun _ => rfl, nofun, fun hi => (by rw [hmem hi]; rfl), rfl⟩
  | false =>
    rw [apply_of_decoderOp _ i s hhalf]
    exact ⟨nofun, fun _ => rfl, fun hi => (by rw [hmem hi]; rfl), rfl⟩

/-! ### Launches -/

theorem exec_eq_refused_iff (i : Instr) (s : State) (why : Refusal) :
    exec i s = .refused why ↔ refusal i = some why := by
  cases h : refusal i with
  | none => simp [exec_of_accepted i s h]
  | some why' => simp [exec_of_refused i s why' h]

/-- Settles O38: what is refused is the launch, for untruthful lengths first and then for a shared address. -/
theorem bufferLaunchesRefusedExactly : Obligations.BufferLaunchesRefusedExactly := by
  intro s l i hi
  have hrefusal : refusal i = launchRefusal l := by
    obtain rfl | rfl := hi <;> rfl
  simp only [exec_eq_refused_iff, exec_eq_next_iff, hrefusal, ← launchRefusal_eq_none]
  refine ⟨fun hlong => ?_, fun hinp hout => ?_, ?_⟩
  · rw [launchRefusal, if_pos (by simpa using hlong)]
  · rw [launchRefusal, if_neg (by simp only [Bool.or_eq_true, decide_eq_true_eq]; omega), ← regionsMeet_iff]
    split_ifs with hmeet
    · exact ⟨fun _ => rfl, fun _ => hmeet⟩
    · exact ⟨fun h => absurd h hmeet, nofun⟩
  · exact ⟨fun ⟨_, h, _⟩ => h, fun h => ⟨_, h, rfl⟩⟩

/-- On success the level written does not depend on the one before. -/
theorem getD_level_of_ok (i : Instr) (k : Level) (ins : List Byte) (h : (effect i k ins).response.ok = true)
    (a b : Level) : (effect i k ins).level.getD a = (effect i k ins).level.getD b := by
  obtain ⟨e, hmay, he⟩ | ⟨-, -, ⟨k', hk'⟩, -⟩ := effect_cases i k ins
  · rw [he, raised, ok_of_mayRaise i e hmay] at h
    cases h
  · rw [hk']
    rfl

/-- Settles O44: a buffer operation's effect is that of its input bytes, and when it is `ok` it sets the level whatever
that was. -/
theorem bufferResultsIgnoreHistory : Obligations.BufferResultsIgnoreHistory := by
  intro s s' l hmem ht hd
  refine ⟨⟨_, _, exec_encodeBuf_eq_after l s ht hd, exec_encodeBuf_eq_after l s' ht hd, ?_⟩,
    ⟨_, _, exec_decodeBuf_eq_after l s ht hd, exec_decodeBuf_eq_after l s' ht hd, ?_⟩⟩
  · have heff : effect (.encodeBuf l) (halfLevel (.encodeBuf l) s') (inputBytes (.encodeBuf l) s'.mem) =
        effect (.encodeBuf l) (halfLevel (.encodeBuf l) s) (inputBytes (.encodeBuf l) s.mem) := by rw [hmem]; rfl
    rw [readOk_after, after, after, heff, apply_of_encoderOp _ _ s rfl, apply_of_encoderOp _ _ s' rfl, hmem]
    exact ⟨rfl, rfl, fun hok => getD_level_of_ok _ _ _ (Except.ok.inj hok) _ _⟩
  · have heff : effect (.decodeBuf l) (halfLevel (.decodeBuf l) s') (inputBytes (.decodeBuf l) s'.mem) =
        effect (.decodeBuf l) (halfLevel (.decodeBuf l) s) (inputBytes (.decodeBuf l) s.mem) := by rw [hmem]; rfl
    rw [readOk_after, after, after, heff, apply_of_decoderOp _ _ s rfl, apply_of_decoderOp _ _ s' rfl, hmem]
    exact ⟨rfl, rfl, fun hok => getD_level_of_ok _ _ _ (Except.ok.inj hok) _ _⟩

end Sys2Proof.Proofs.Operations
end

section
/-! Reset, single steps and the machine's invariant (spec/10_state.md, spec/70_reset_and_hazards.md): every operation
that ends keeps the invariant, so every step does, and so do the host's actions between steps. -/

namespace Sys2Proof.Proofs.Steps
open Sys2Proof.Machine Sys2Proof.Proofs.ByteCoder Sys2Proof.Proofs.Laws Sys2Proof.Proofs.Effects
  Sys2Proof.Proofs.Operations

/-! ### The invariant -/

/-- With empty response ports the invariant speaks of memory only. -/
theorem inv_of_response_none (s : State) (hmem : s.mem.wf) (hresp : s.response = none) : Inv s :=
  ⟨hmem, fun r h => by rw [hresp] at h; cases h⟩

/-- A symbol `EncBit` emits is valid and ends at the level it leaves (R104, R12). -/
theorem encBit_symbol_fits (b : Bit) (l : Level) :
    symbolValid (encBit b l).1 = true ∧ secondHalf (encBit b l).1 = (encBit b l).2.toBit := by
  obtain ⟨-, hsecond⟩ := encBit_symbol b l
  rw [hsecond, encBit_level, Level.toBit_ofBit, encBit_symbol_eq_append, symbolValid_halves]
  exact ⟨by cases (b ^^ l.toBit) <;> rfl, rfl⟩

/-- A unit `EncByte` emits is valid and its bit 7 is the level it leaves (R104, R85). -/
theorem encByte_unit_fits (d : Byte) (l : Level) :
    unitValid (encByte d l).1 = true ∧ (encByte d l).1.getLsbD 7 = (encByte d l).2.toBit := by
  obtain ⟨hvalid, hodd, hlevel⟩ := encByte_spec d l
  refine ⟨hvalid, ?_⟩
  rw [hlevel, Level.toBit_ofBit]
  exact hodd 7 (by decide)

/-- A response without a symbol or unit fits every state when no data stands beside an error. -/
theorem responseFits_of_no_code (r : Response) (s : State) (hdata : r.ok = false → r.dataResults = 0)
    (hone : r.dataResults ≤ 1) (hsym : r.sym = none) (hq : r.q = none) : responseFits r s := by
  refine ⟨fun hne => hdata ?_, hone, fun x hx => ?_, fun q hq' => ?_⟩
  · exact Bool.eq_false_of_not_eq_true fun hok => hne ((ok_eq_true_iff r).1 hok)
  · rw [hsym] at hx; cases hx
  · rw [hq] at hq'; cases hq'

/-- The response an operation gives fits the state it ends in. -/
theorem responseFits_after (i : Instr) (s : State) :
    responseFits (effect i (halfLevel i s) (inputBytes i s.mem)).response (after i s) := by
  have hanswers := answers_effect i (halfLevel i s) (inputBytes i s.mem)
  obtain ⟨hdata, hone⟩ := dataResults_of_answers i _ _ hanswers
  cases i with
  | encBit b =>
    refine ⟨fun hne => absurd rfl hne, hone, fun x hx => ?_, nofun⟩
    obtain rfl : (encBit b s.encLevel).1 = x := Option.some.inj hx
    exact encBit_symbol_fits b s.encLevel
  | encByte d =>
    refine ⟨fun hne => absurd rfl hne, hone, nofun, fun q hq => ?_⟩
    obtain rfl : (encByte d s.encLevel).1 = q := Option.some.inj hq
    exact encByte_unit_fits d s.encLevel
  | encStart | decStart | decSym | decUnit | encodeBuf | decodeBuf =>
    obtain ⟨hsym, -, hq, -⟩ := data_of_answers _ _ _ hanswers
    exact responseFits_of_no_code _ _ hdata hone (hsym (.inr nofun)) (hq (.inr nofun))

/-- Every operation that ends, whatever response stood before it, ends in a state that meets the invariant. -/
theorem inv_after (i : Instr) (s : State) (hmem : s.mem.wf) : Inv (after i s) := by
  refine ⟨Memory.writeBytes_wf s.mem _ _ hmem, fun r hr => ?_⟩
  obtain rfl : (effect i (halfLevel i s) (inputBytes i s.mem)).response = r := Option.some.inj hr
  exact responseFits_after i s

/-! ### Steps -/

theorem step_of_no_request (s : State) (h : s.requests = []) : step s = .next s.dropResponse := by
  rw [step, h]

theorem step_of_request (s : State) (r : Request) (rest : List Request) (h : s.requests = r :: rest) :
    step s = exec (decode r) (s.setRequests rest) := by
  rw [step, h]

/-- Settles O4: the idle step leaves memory and empties the ports; any other ends as its operation does. -/
theorem stepKeepsInvariant : Obligations.StepKeepsInvariant := by
  rintro s t ⟨hmem, -⟩ hstep
  cases hreq : s.requests with
  | nil =>
    rw [step_of_no_request s hreq] at hstep
    cases hstep
    exact inv_of_response_none _ hmem rfl
  | cons r rest =>
    rw [step_of_request s r rest hreq] at hstep
    obtain ⟨-, rfl⟩ := (exec_eq_next_iff _ _ _).1 hstep
    exact inv_after _ _ hmem

/-- Settles O6: the idle step does not fault and no operation does. -/
theorem stepNeverFaults : Obligations.StepNeverFaults := by
  intro s f
  cases hreq : s.requests with
  | nil => rw [step_of_no_request s hreq]; exact nofun
  | cons r rest => rw [step_of_request s r rest hreq]; exact exec_ne_fault _ _ f

/-! ### Reset and the host -/

/-- Settles O1: each field of the state after reset; without a request the step is idle. -/
theorem resetLevelsHighAndIdle : Obligations.ResetLevelsHighAndIdle :=
  ⟨State.reset_encLevel, State.reset_decLevel, State.reset_requests, State.reset_response, State.reset_mem,
    step_of_no_request State.reset State.reset_requests⟩

/-- Settles O2: the two STARTs leave what hardware reset does but for their response, which no operation reads. -/
theorem hardResetActsAsBothStarts : Obligations.HardResetActsAsBothStarts := fun s i =>
  ⟨s.hardReset.setResponse {}, rfl, exec_setResponse i s.hardReset {}⟩

/-- Settles O3: memory lists nothing and nothing has been answered. -/
theorem invariantHoldsAtReset : Obligations.InvariantHoldsAtReset :=
  inv_of_response_none _ Memory.wf_nil State.reset_response

/-- Settles O5: each action empties the ports, and writing keeps the canonical form of memory. -/
theorem hostActionsKeepInvariant : Obligations.HostActionsKeepInvariant := by
  rintro s r a v ⟨hmem, -⟩
  exact ⟨inv_of_response_none _ hmem rfl, inv_of_response_none _ (Memory.write_wf s.mem a v hmem) rfl,
    inv_of_response_none _ hmem rfl, Memory.read_write_same s.mem a v hmem,
    fun b hb => Memory.read_write_other s.mem a b v hb⟩

/-! ### Level control and invalid symbols -/

/-- Settles O10: the effect of ENC.START, carried out. -/
theorem encStartLoadsHigh : Obligations.EncStartLoadsHigh := fun s => exec_of_accepted .encStart s rfl

/-- Settles O11: the effect of DEC.START, carried out. -/
theorem decStartLoadsHigh : Obligations.DecStartLoadsHigh := fun s => exec_of_accepted .decStart s rfl

/-- Settles O15: `00` and `11` are not valid, so the strict policy raises its error. -/
theorem decSymRejectsInvalidSymbols : Obligations.DecSymRejectsInvalidSymbols := by
  intro s x hx
  have hinvalid : symbolValid x = false := by obtain rfl | rfl := hx <;> rfl
  exact ⟨_, exec_decSym_of_invalid x s hinvalid, rfl, rfl, rfl⟩

end Sys2Proof.Proofs.Steps
end

section
/-! An encoder operation and a decoder operation on disjoint buffers (spec/60_exceptions.md R132): runs of bytes written
apart from each other commute, and neither operation's effect depends on what the other writes. -/

namespace Sys2Proof.Proofs.Interleaving
open Sys2Proof.Machine Sys2Proof.Proofs.Laws Sys2Proof.Proofs.Effects Sys2Proof.Proofs.Operations

/-! ### Runs of bytes -/

/-- Inside the run written each address reads as the byte written there. -/
theorem read_writeBytes_inside (m : Memory) (a : Nat) (bs : List Byte) (k : Nat) (b : Byte) (hwf : m.wf)
    (h : bs[k]? = some b) : (m.writeBytes a bs).read (a + k) = b := by
  obtain ⟨hk, -⟩ := List.getElem?_eq_some_iff.1 h
  have hget := Memory.getElem?_readBytes (m.writeBytes a bs) a bs.length k hk
  rw [Memory.readBytes_writeBytes m a bs hwf, h] at hget
  exact (Option.some.inj hget).symm

/-- After the same run is written, two memories read alike wherever they did outside it, and everywhere inside it. -/
theorem read_writeBytes_congr (m m' : Memory) (a : Nat) (bs : List Byte) (x : Nat) (hwf : m.wf) (hwf' : m'.wf)
    (h : m.read x = m'.read x) : (m.writeBytes a bs).read x = (m'.writeBytes a bs).read x := by
  by_cases hx : outsideRegion a bs.length x
  · rw [Memory.read_writeBytes_outside m a x bs hx, Memory.read_writeBytes_outside m' a x bs hx, h]
  · unfold outsideRegion at hx
    obtain ⟨k, rfl⟩ : ∃ k, x = a + k := ⟨x - a, by omega⟩
    have hget : bs[k]? = some (bs[k]'(by omega)) := List.getElem?_eq_getElem (by omega)
    rw [read_writeBytes_inside m a bs k _ hwf hget, read_writeBytes_inside m' a bs k _ hwf' hget]

/-- Two runs that share no address can be written in either order. -/
theorem writeBytes_comm (m : Memory) (a b : Nat) (as bs : List Byte) (hwf : m.wf)
    (hapart : ∀ x, outsideRegion a as.length x ∨ outsideRegion b bs.length x) :
    (m.writeBytes a as).writeBytes b bs = (m.writeBytes b bs).writeBytes a as := by
  have hwfA := Memory.writeBytes_wf m a as hwf
  have hwfB := Memory.writeBytes_wf m b bs hwf
  refine Memory.ext_of_wf _ _ (Memory.writeBytes_wf _ b bs hwfA) (Memory.writeBytes_wf _ a as hwfB) fun x => ?_
  obtain hx | hx := hapart x
  · rw [Memory.read_writeBytes_outside (m.writeBytes b bs) a x as hx]
    exact read_writeBytes_congr _ _ _ _ _ hwfA hwf (Memory.read_writeBytes_outside m a x as hx)
  · rw [Memory.read_writeBytes_outside (m.writeBytes a as) b x bs hx]
    exact read_writeBytes_congr _ _ _ _ _ hwf hwfB (Memory.read_writeBytes_outside m b x bs hx).symm

/-! ### What one operation writes and the other touches -/

theorem outputBase_of_launch (i : Instr) (l : Launch) (h : launchOf i = some l) : outputBase i = l.out.base := by
  rw [outputBase, h]

/-- What an operation writes lies in the output of its launch. -/
theorem outsideRegion_of_not_output (i : Instr) (k : Level) (ins : List Byte) (x : Nat)
    (h : ∀ l, launchOf i = some l → outsideRegion l.out.base l.outputCapacity x) :
    outsideRegion (outputBase i) (effect i k ins).output.length x := by
  obtain hnil | ⟨l, hl, hlen⟩ := writesWithin_effect i k ins
  · rw [hnil]
    exact Nat.lt_or_ge x _
  · have hout := h l hl
    rw [outputBase_of_launch i l hl]
    unfold outsideRegion at hout ⊢
    omega

theorem outsideRegion_or_of_regionsMeet (a m b n : Nat) (h : regionsMeet a m b n = false) (x : Nat) :
    outsideRegion a m x ∨ outsideRegion b n x := by
  have hne := regionsMeet_eq_false a m b n h x x
  unfold outsideRegion
  omega

/-- The input an operation reads is not changed by what another writes apart from it. -/
theorem inputBytes_writeBytes (j : Instr) (m : Memory) (a : Nat) (bs : List Byte)
    (h : ∀ l, launchOf j = some l → ∀ x, outsideRegion a bs.length x ∨ outsideRegion l.inp.base l.inputLen x) :
    inputBytes j (m.writeBytes a bs) = inputBytes j m := by
  unfold inputBytes
  cases hj : launchOf j with
  | none => rfl
  | some l =>
    refine Memory.readBytes_congr _ _ _ _ fun x hlo hhi => Memory.read_writeBytes_outside m a x bs ?_
    obtain hx | hx := h l hj x
    · exact hx
    · unfold outsideRegion at hx
      omega

section
variable (i j : Instr) (hapart : buffersApart i j) (k : Level) (ins : List Byte)
include hapart

/-- The first operation writes nothing the second reads. -/
theorem inputBytes_after_first (m : Memory) :
    inputBytes j (m.writeBytes (outputBase i) (effect i k ins).output) = inputBytes j m := by
  refine inputBytes_writeBytes j m _ _ fun lj hj x => or_iff_not_imp_right.2 fun hx => ?_
  refine outsideRegion_of_not_output i k ins x fun li hi => ?_
  obtain ⟨hread, -, -⟩ := hapart li lj hi hj
  exact (outsideRegion_or_of_regionsMeet _ _ _ _ hread x).resolve_right hx

/-- The second operation writes nothing the first reads. -/
theorem inputBytes_after_second (m : Memory) :
    inputBytes i (m.writeBytes (outputBase j) (effect j k ins).output) = inputBytes i m := by
  refine inputBytes_writeBytes i m _ _ fun li hi x => or_iff_not_imp_right.2 fun hx => ?_
  refine outsideRegion_of_not_output j k ins x fun lj hj => ?_
  obtain ⟨-, -, hread⟩ := hapart li lj hi hj
  exact (outsideRegion_or_of_regionsMeet _ _ _ _ hread x).resolve_left hx

/-- The two operations write nowhere the same. -/
theorem outputs_apart (k' : Level) (ins' : List Byte) (x : Nat) :
    outsideRegion (outputBase i) (effect i k ins).output.length x ∨
    outsideRegion (outputBase j) (effect j k' ins').output.length x := by
  refine or_iff_not_imp_right.2 fun hx => outsideRegion_of_not_output i k ins x fun li hi => ?_
  by_contra hxi
  refine hx (outsideRegion_of_not_output j k' ins' x fun lj hj => ?_)
  obtain ⟨-, hwrite, -⟩ := hapart li lj hi hj
  exact (outsideRegion_or_of_regionsMeet _ _ _ _ hwrite x).resolve_left hxi

end

/-! ### The level each half finds -/

theorem halfLevel_of_encoderOp (i : Instr) (s : State) (h : isEncoderOp i = true) : halfLevel i s = s.encLevel :=
  if_pos h

theorem halfLevel_of_decoderOp (i : Instr) (s : State) (h : isEncoderOp i = false) : halfLevel i s = s.decLevel := by
  rw [halfLevel, h]
  rfl

/-! ### The statement -/

/-- Settles O59: each operation finds its own level and input as it left them, so its effect is the same in either
order, and the two outputs are written apart. -/
theorem encoderAndDecoderCommute : Obligations.EncoderAndDecoderCommute := by
  intro i j s t₁ t₂ hwf hi hj hapart hexec₁ hexec₂
  obtain ⟨hnone₁, rfl⟩ := (exec_eq_next_iff i s t₁).1 hexec₁
  obtain ⟨hnone₂, rfl⟩ := (exec_eq_next_iff j s t₂).1 hexec₂
  refine ⟨_, _, exec_of_accepted j _ hnone₂, exec_of_accepted i _ hnone₁, ?_⟩
  have hlevel₁ : halfLevel j (after i s) = halfLevel j s := by
    rw [halfLevel_of_decoderOp j _ hj, halfLevel_of_decoderOp j s hj, after, apply_of_encoderOp _ i s hi]
  have hlevel₂ : halfLevel i (after j s) = halfLevel i s := by
    rw [halfLevel_of_encoderOp i _ hi, halfLevel_of_encoderOp i s hi, after, apply_of_decoderOp _ j s hj]
  have heff₁ : after j (after i s) = (effect j (halfLevel j s) (inputBytes j s.mem)).apply j (after i s) := by
    rw [after.eq_def j, hlevel₁, ← inputBytes_after_first i j hapart (halfLevel i s) (inputBytes i s.mem) s.mem]
    rfl
  have heff₂ : after i (after j s) = (effect i (halfLevel i s) (inputBytes i s.mem)).apply i (after j s) := by
    rw [after.eq_def i, hlevel₂, ← inputBytes_after_second i j hapart (halfLevel j s) (inputBytes j s.mem) s.mem]
    rfl
  rw [heff₁, heff₂, after, after]
  simp only [apply_of_encoderOp _ i _ hi, apply_of_decoderOp _ j _ hj, true_and, and_true]
  exact writeBytes_comm s.mem _ _ _ _ hwf (outputs_apart i j hapart _ _ _ _)

end Sys2Proof.Proofs.Interleaving
end

section
/-! Runs of operations indexed by position: a run whose every operation ends, each where the next begins
(spec/30_encoding.md R64), and the runs of equal bits it gives (spec/43_laws.md section 2). -/

namespace Sys2Proof.Proofs.Runs
open Sys2Proof.Machine Sys2Proof.Proofs.Outcomes Sys2Proof.Proofs.BitCoder

/-- A run from position `a`: when each operation ends with its response and leads from the condition at its position to
the next one's, the run ends with all the responses and at the condition after the last. -/
theorem runOps_range' (f : Nat → Instr) (g : Nat → Option Response) (P : Nat → State → Prop) (n a : Nat) (s : State)
    (hstep : ∀ i, i < a + n → ∀ s, P i s → ∃ t, exec (f i) s = .next t ∧ t.response = g i ∧ P (i + 1) t)
    (hs : P a s) :
    ∃ t, runOps ((List.range' a n).map f) s = some (t, (List.range' a n).map g) ∧ P (a + n) t := by
  induction n generalizing a s with
  | zero => exact ⟨s, rfl, hs⟩
  | succ n ih =>
    obtain ⟨t, hexec, hresp, ht⟩ := hstep a (by omega) s hs
    obtain ⟨u, hrun, hu⟩ := ih (a + 1) t (fun i hi => hstep i (by omega)) ht
    refine ⟨u, ?_, by rwa [show a + (n + 1) = a + 1 + n by omega]⟩
    rw [List.range'_succ, List.map_cons, List.map_cons, runOps_cons_of_exec _ _ _ _ _ _ hexec hrun, hresp]

theorem runOps_range (f : Nat → Instr) (g : Nat → Option Response) (P : Nat → State → Prop) (n : Nat) (s : State)
    (hstep : ∀ i, i < n → ∀ s, P i s → ∃ t, exec (f i) s = .next t ∧ t.response = g i ∧ P (i + 1) t) (hs : P 0 s) :
    ∃ t, runOps ((List.range n).map f) s = some (t, (List.range n).map g) ∧ P n t := by
  have hrun := runOps_range' f g P n 0 s (by simpa using hstep) hs
  rwa [← List.range_eq_range', Nat.zero_add] at hrun

theorem replicate_eq_map_range (α : Type) (n : Nat) (x : α) : List.replicate n x = (List.range n).map fun _ => x := by
  rw [List.map_const', List.length_range]

/-! ### Runs of equal bits -/

/-- A 0 bit repeats the symbol that ends at the level before. -/
theorem encBit_false (l : Level) : encBit false l = (if l = .low then 0b10#2 else 0b01#2, l) := by
  cases l <;> rfl

/-- A 1 bit toggles the level. -/
theorem encBit_true (l : Level) : encBit true l = (if l.toBit = true then 0b10#2 else 0b01#2, l.flip) := by
  cases l <;> rfl

/-- The level after `k` toggles from `l`. -/
def toggled (l : Level) (k : Nat) : Level := if k % 2 = 0 then l else l.flip

theorem toggled_succ (l : Level) (k : Nat) : toggled l (k + 1) = (toggled l k).flip := by
  unfold toggled
  rcases Nat.mod_two_eq_zero_or_one k with hk | hk
  · rw [if_neg (by omega), if_pos hk]
  · rw [if_pos (by omega), if_neg (by omega)]
    cases l <;> rfl

theorem toggled_toBit_iff (l : Level) (k : Nat) : (toggled l k).toBit = true ↔ l.toBit = (k % 2 == 0) := by
  unfold toggled
  rcases Nat.mod_two_eq_zero_or_one k with hk | hk <;> cases l <;> simp [hk]

/-- Settles O13: each 0 bit keeps the level and each 1 bit toggles it, so the level before each bit of a run, and with
it the symbol, is known from its position. -/
theorem encBitRunsRepeatOrAlternate : Obligations.EncBitRunsRepeatOrAlternate := by
  intro s n
  constructor
  · rw [replicate_eq_map_range, replicate_eq_map_range]
    refine runOps_range _ _ (fun _ t => t.encLevel = s.encLevel) n s (fun i _ t ht => ?_) rfl
    rw [← ht]
    exact ⟨_, exec_encBit_of_encBit false t _ _ (encBit_false t.encLevel), rfl, rfl⟩
  · rw [replicate_eq_map_range]
    refine runOps_range _ _ (fun k t => t.encLevel = toggled s.encLevel k) n s (fun k _ t ht => ?_) rfl
    refine ⟨_, exec_encBit_of_encBit true t _ _ (encBit_true t.encLevel), ?_, ?_⟩
    · simp only [ht, toggled_toBit_iff]
    · rw [toggled_succ, ← ht]

end Sys2Proof.Proofs.Runs
end

section
/-! Running parities (spec/41_byte_coder.md R85) and the encoder's half of the byte coder: its unit bit by bit, by
nibbles (R86), by symbols, and from the other level (spec/43_laws.md R112). -/

namespace Sys2Proof.Proofs.ByteEncoder
open Sys2Proof.Machine Sys2Proof.Proofs.BitCoder Sys2Proof.Proofs.ByteCoder Sys2Proof.Proofs.Runs

/-! ### Running parities -/

theorem runningParity_succ (b : Bit) (d : Byte) (n : Nat) :
    runningParity b d (n + 1) = (runningParity b d n ^^ d.getLsbD n) := rfl

/-- Only the bits passed so far count. -/
theorem runningParity_congr (b : Bit) (d e : Byte) (n : Nat) (h : ∀ i, i < n → d.getLsbD i = e.getLsbD i) :
    runningParity b d n = runningParity b e n := by
  induction n with
  | zero => rfl
  | succ n ih => rw [runningParity_succ, runningParity_succ, ih fun i hi => h i (by omega), h n (by omega)]

/-- The bits from position `m` on go on from the parity reached there. -/
theorem runningParity_add (b : Bit) (d : Byte) (m n : Nat) :
    runningParity b d (m + n) = runningParity (runningParity b d m) (d >>> m) n := by
  induction n with
  | zero => rfl
  | succ n ih => rw [← Nat.add_assoc, runningParity_succ, runningParity_succ, ih, BitVec.getLsbD_ushiftRight]

/-- The start enters every running parity as a bit of its own. -/
theorem runningParity_xor (b c : Bit) (d : Byte) (n : Nat) :
    runningParity (b ^^ c) d n = (b ^^ runningParity c d n) := by
  induction n with
  | zero => rfl
  | succ n ih => rw [runningParity_succ, runningParity_succ, ih, Bool.xor_assoc]

theorem runningParity_not (b : Bit) (d : Byte) (n : Nat) : runningParity (!b) d n = !runningParity b d n := by
  rw [← Bool.true_xor, runningParity_xor, Bool.true_xor]

theorem foldl_xor_eq_runningParity (d : Byte) (n : Nat) :
    (List.range n).foldl (fun acc i => acc ^^ d.getLsbD i) false = runningParity false d n := by
  induction n with
  | zero => rfl
  | succ n ih => rw [List.range_succ, List.foldl_append, ih]; rfl

theorem parity_eq_runningParity (d : Byte) : parity d = runningParity false d 8 := foldl_xor_eq_runningParity d 8

theorem runningParity_eight (b : Bit) (d : Byte) : runningParity b d 8 = (b ^^ parity d) := by
  rw [parity_eq_runningParity, ← runningParity_xor, Bool.xor_false]

/-- The level `EncByte` leaves is the one before XOR the byte's parity (R108). -/
theorem encByte_level_eq_parity (d : Byte) (l : Level) : (encByte d l).2 = .ofBit (l.toBit ^^ parity d) := by
  rw [encByte_level, encodedLevel, runningParity_eight]

/-! ### The unit bit by bit -/

/-- The two bits of the slot of bit `i`: the running parity and, below it, its complement (R85). -/
theorem encByte_slot_bits (d : Byte) (l : Level) (i : Nat) (hi : i < 8) :
    (encByte d l).1.getLsbD ((8 + 2 * i) % 16) = !runningParity l.toBit d (i + 1) ∧
    (encByte d l).1.getLsbD ((8 + 2 * i) % 16 + 1) = runningParity l.toBit d (i + 1) := by
  obtain ⟨hvalid, hodd, -⟩ := encByte_spec d l
  rw [firstHalf_of_unitValid _ hvalid i, hodd i hi]
  exact ⟨rfl, rfl⟩

/-- Settles O18: slot `i` is at `8 + 2i` for the low nibble and at `2 (i - 4)` for the high one. -/
theorem encByteBitsAreRunningParities : Obligations.EncByteBitsAreRunningParities := by
  intro s d
  refine ⟨(encByte d s.encLevel).1, ?_, fun i hi => ?_, fun i hlo hhi => ?_⟩
  · exact exec_encByte_of_encByte d s _ _ (Prod.ext rfl (encByte_level_eq_parity d s.encLevel))
  · have hbits := encByte_slot_bits d s.encLevel i (by omega)
    rwa [show (8 + 2 * i) % 16 = 8 + 2 * i by omega, show 8 + 2 * i + 1 = 9 + 2 * i by omega] at hbits
  · have hbits := encByte_slot_bits d s.encLevel i hhi
    rwa [show (8 + 2 * i) % 16 = 2 * (i - 4) by omega] at hbits

/-! ### The unit by nibbles -/

/-- What `NibEnc` does: each odd bit the running parity, the even bit below it the complement, and the level after. -/
theorem nibEnc_spec (x : BitVec 4) (l : Level) :
    (∀ j, j < 4 → (nibEnc x l).1.getLsbD (2 * j) = !runningParity l.toBit (x.setWidth 8) (j + 1) ∧
      (nibEnc x l).1.getLsbD (2 * j + 1) = runningParity l.toBit (x.setWidth 8) (j + 1)) ∧
    (nibEnc x l).2 = .ofBit (runningParity l.toBit (x.setWidth 8) 4) := by
  cases l <;> revert x <;> decide

/-- `NibEnc` of a nibble of `d`, from the level before that nibble, goes on with the running parities of `d`. -/
theorem nibEnc_nibble (d : Byte) (l : Level) (m : Nat) :
    (∀ j, j < 4 → (nibEnc (d.extractLsb' m 4) (encodedLevel d l m)).1.getLsbD (2 * j) =
        !runningParity l.toBit d (m + j + 1) ∧
      (nibEnc (d.extractLsb' m 4) (encodedLevel d l m)).1.getLsbD (2 * j + 1) =
        runningParity l.toBit d (m + j + 1)) ∧
    (nibEnc (d.extractLsb' m 4) (encodedLevel d l m)).2 = encodedLevel d l (m + 4) := by
  have hparity : ∀ n, n ≤ 4 → runningParity (encodedLevel d l m).toBit ((d.extractLsb' m 4).setWidth 8) n =
      runningParity l.toBit d (m + n) := by
    intro n hn
    rw [encodedLevel, Level.toBit_ofBit, runningParity_add]
    refine runningParity_congr _ _ _ _ fun i hi => ?_
    simp [BitVec.getLsbD_setWidth, BitVec.getLsbD_extractLsb', BitVec.getLsbD_ushiftRight,
      -BitVec.getLsbD_eq_getElem, show i < 8 by omega, show i < 4 by omega]
  obtain ⟨hbits, hlevel⟩ := nibEnc_spec (d.extractLsb' m 4) (encodedLevel d l m)
  refine ⟨fun j hj => ?_, ?_⟩
  · rw [Nat.add_assoc, ← hparity (j + 1) (by omega)]
    exact hbits j hj
  · rw [hlevel, hparity 4 (by omega), encodedLevel]

/-- A byte is determined by its four pairs of bits. -/
theorem byte_ext_of_pairs (x y : Byte)
    (h : ∀ j, j < 4 → x.getLsbD (2 * j) = y.getLsbD (2 * j) ∧ x.getLsbD (2 * j + 1) = y.getLsbD (2 * j + 1)) :
    x = y := by
  refine BitVec.eq_of_getLsbD_eq fun i hi => ?_
  obtain ⟨heven, hodd⟩ := h (i / 2) (by omega)
  rcases Nat.mod_two_eq_zero_or_one i with hi | hi
  · rwa [show 2 * (i / 2) = i by omega] at heven
  · rwa [show 2 * (i / 2) + 1 = i by omega] at hodd

/-- The unit's high byte codes the low nibble from the level before (R86). -/
theorem highByte_encByte (d : Byte) (l : Level) :
    highByte (encByte d l).1 = (nibEnc (d.extractLsb' 0 4) (encodedLevel d l 0)).1 := by
  obtain ⟨hnib, -⟩ := nibEnc_nibble d l 0
  refine byte_ext_of_pairs _ _ fun j hj => ?_
  obtain ⟨hnibEven, hnibOdd⟩ := hnib j hj
  obtain ⟨heven, hodd⟩ := encByte_slot_bits d l j (by omega)
  rw [show (8 + 2 * j) % 16 = 8 + 2 * j by omega] at heven hodd
  rw [getLsbD_highByte, getLsbD_highByte, decide_eq_true (by omega), decide_eq_true (by omega), Bool.true_and,
    Bool.true_and, hnibEven, hnibOdd, ← Nat.add_assoc, heven, hodd, Nat.zero_add]
  exact ⟨rfl, rfl⟩

/-- The unit's low byte codes the high nibble from the level the low nibble leaves (R86). -/
theorem lowByte_encByte (d : Byte) (l : Level) :
    lowByte (encByte d l).1 = (nibEnc (d.extractLsb' 4 4) (encodedLevel d l 4)).1 := by
  obtain ⟨hnib, -⟩ := nibEnc_nibble d l 4
  refine byte_ext_of_pairs _ _ fun j hj => ?_
  obtain ⟨hnibEven, hnibOdd⟩ := hnib j hj
  obtain ⟨heven, hodd⟩ := encByte_slot_bits d l (4 + j) (by omega)
  rw [show (8 + 2 * (4 + j)) % 16 = 2 * j by omega] at heven hodd
  rw [getLsbD_lowByte, getLsbD_lowByte, decide_eq_true (by omega), decide_eq_true (by omega), Bool.true_and,
    Bool.true_and, hnibEven, hnibOdd, heven, hodd]
  exact ⟨rfl, rfl⟩

/-- `NibEnc` of the low nibble leaves the level before the high one. -/
theorem nibEnc_low_level (d : Byte) (l : Level) : (nibEnc (d.extractLsb' 0 4) l).2 = encodedLevel d l 4 := by
  obtain ⟨-, hlevel⟩ := nibEnc_nibble d l 0
  rwa [encodedLevel_zero] at hlevel

/-- `EncByte` is `NibEnc` of the low nibble, then of the high one from the level that leaves (R86). -/
theorem encByte_eq_nibEnc (d : Byte) (l : Level) :
    encByte d l = ((nibEnc (d.extractLsb' 0 4) l).1 ++ (nibEnc (d.extractLsb' 4 4) (encodedLevel d l 4)).1,
      (nibEnc (d.extractLsb' 4 4) (encodedLevel d l 4)).2) := by
  obtain ⟨-, hlevel⟩ := nibEnc_nibble d l 4
  have hunit : (encByte d l).1 = highByte (encByte d l).1 ++ lowByte (encByte d l).1 := by
    rw [← joinBytes_eq_append, joinBytes_highByte_lowByte]
  rw [highByte_encByte, lowByte_encByte, encodedLevel_zero] at hunit
  exact Prod.ext hunit ((encByte_level d l).trans hlevel.symm)

/-- Settles O19: the two bytes of the unit are the codes of the two nibbles, each from the level before it. -/
theorem encByteSplitsByNibble : Obligations.EncByteSplitsByNibble := by
  intro s d
  rw [nibEnc_low_level]
  exact exec_encByte_of_encByte d s _ _ (encByte_eq_nibEnc d s.encLevel)

/-! ### The unit by symbols -/

/-- The slots in the order of the symbols (R57). -/
theorem slotOrder_eq_map : Config.slotOrder = (List.range 8).map fun i => (8 + 2 * i) % 16 := rfl

/-- `EncBit` of bit `i` at the level carried to it gives the symbol in slot `i` and the level carried on. -/
theorem encBit_encodedLevel (d : Byte) (l : Level) (i : Nat) (hi : i < 8) :
    encBit (d.getLsbD i) (encodedLevel d l i) =
      (slotSymbol (encByte d l).1 ((8 + 2 * i) % 16), encodedLevel d l (i + 1)) :=
  Prod.ext (slotSymbol_encByte d l i hi).symm (encodedLevel_succ d l i).symm

/-- Settles O20: each ENC.BIT of the run finds the level carried to its bit and emits the symbol of its slot. -/
theorem encByteIsEightEncBits : Obligations.EncByteIsEightEncBits := by
  intro s d
  obtain ⟨u, hrun, hu⟩ := runOps_range (fun i => .encBit (d.getLsbD i))
    (fun i => some { sym := some (slotSymbol (encByte d s.encLevel).1 ((8 + 2 * i) % 16)) })
    (fun i t => t.encLevel = encodedLevel d s.encLevel i) 8 s
    (fun i hi t ht => ⟨_, exec_encBit_of_encBit _ t _ _ (ht ▸ encBit_encodedLevel d s.encLevel i hi), rfl, rfl⟩)
    (encodedLevel_zero d s.encLevel).symm
  have hexec := exec_encByte_of_encByte d s (encByte d s.encLevel).1 (encodedLevel d s.encLevel 8)
    (Prod.ext rfl (encByte_level d s.encLevel))
  exact ⟨_, u, _, Config.slotOrder.map (slotSymbol (encByte d s.encLevel).1), hexec, rfl, rfl, hrun, hu.symm, rfl⟩

/-! ### The other level -/

theorem unitValid_not (u : CodeUnit) (hu : unitValid u = true) : unitValid (~~~u) = true := by
  rw [unitValid_iff] at hu ⊢
  intro j hj
  have hne := hu j hj
  rw [BitVec.getLsbD_not, BitVec.getLsbD_not, decide_eq_true (by omega), decide_eq_true (by omega)]
  simpa using hne

/-- Two valid units with the same second half-bits, slot by slot in the order of the symbols, are equal. -/
theorem unitValid_ext_slots (u v : CodeUnit) (hu : unitValid u = true) (hv : unitValid v = true)
    (h : ∀ i, i < 8 → u.getLsbD ((8 + 2 * i) % 16 + 1) = v.getLsbD ((8 + 2 * i) % 16 + 1)) : u = v := by
  refine unitValid_ext u v hu hv fun j hj => ?_
  have hslot := h ((j + 4) % 8) (by omega)
  rwa [show (8 + 2 * ((j + 4) % 8)) % 16 + 1 = 2 * j + 1 by omega] at hslot

/-- From the other level every running parity is complemented (R112). -/
theorem encByte_flip (d : Byte) (l : Level) : encByte d l.flip = (~~~(encByte d l).1, (encByte d l).2.flip) := by
  obtain ⟨hvalid, -, -⟩ := encByte_spec d l
  obtain ⟨hvalid', -, -⟩ := encByte_spec d l.flip
  refine Prod.ext (unitValid_ext_slots _ _ hvalid' (unitValid_not _ hvalid) fun i hi => ?_) ?_
  · obtain ⟨-, hodd⟩ := encByte_slot_bits d l i hi
    obtain ⟨-, hodd'⟩ := encByte_slot_bits d l.flip i hi
    rw [BitVec.getLsbD_not, decide_eq_true (by omega), Bool.true_and, hodd, hodd', Level.toBit_flip,
      runningParity_not]
  · rw [← Level.toBit_inj, Level.toBit_flip, encByte_level_eq_parity, encByte_level_eq_parity, Level.toBit_ofBit,
      Level.toBit_ofBit, Level.toBit_flip, Bool.not_xor]

theorem encBit_flip (b : Bit) (l : Level) : encBit b l.flip = (~~~(encBit b l).1, (encBit b l).2.flip) := by
  cases b <;> cases l <;> rfl

/-- Settles O21: the complement laws of `EncByte` and `EncBit`, carried to the operations. -/
theorem otherLevelComplementsTheCode : Obligations.OtherLevelComplementsTheCode := by
  intro s d b
  exact ⟨_, _, _, _, exec_encByte_of_encByte d s _ _ rfl,
    exec_encByte_of_encByte d (s.setEncLevel s.encLevel.flip) _ _ (encByte_flip d s.encLevel),
    exec_encBit_of_encBit b s _ _ rfl,
    exec_encBit_of_encBit b (s.setEncLevel s.encLevel.flip) _ _ (encBit_flip b s.encLevel)⟩

end Sys2Proof.Proofs.ByteEncoder
end

section
/-! The decoder's half of the byte coder (spec/41_byte_coder.md section 2): which units are valid, the byte bit by bit
and symbol by symbol, the inverse of the encoder, a wrong level before, and the permissive policy (R87). -/

namespace Sys2Proof.Proofs.ByteDecoder
open Sys2Proof.Machine Sys2Proof.Proofs.BitCoder Sys2Proof.Proofs.ByteCoder Sys2Proof.Proofs.Laws
  Sys2Proof.Proofs.Runs Sys2Proof.Proofs.ByteEncoder

/-! ### Valid units -/

theorem symbolValid_slotSymbol (u : CodeUnit) (p : Nat) :
    symbolValid (slotSymbol u p) = (u.getLsbD p != u.getLsbD (p + 1)) := symbolValid_halves _ _

theorem mem_slotOrder_iff (p : Nat) : p ∈ Config.slotOrder ↔ ∃ j, j < 8 ∧ p = 2 * j := by
  constructor
  · intro hp
    have hbounds : ∀ p ∈ Config.slotOrder, p < 16 ∧ p % 2 = 0 := by decide
    obtain ⟨hlt, heven⟩ := hbounds p hp
    exact ⟨p / 2, by omega, by omega⟩
  · rintro ⟨j, hj, rfl⟩
    have hall : ∀ j < 8, 2 * j ∈ Config.slotOrder := by decide
    exact hall j hj

theorem unitValid_iff_slots (u : CodeUnit) :
    unitValid u = true ↔ ∀ p ∈ Config.slotOrder, symbolValid (slotSymbol u p) = true := by
  simp only [unitValid_iff, mem_slotOrder_iff, symbolValid_slotSymbol, bne_iff_ne]
  constructor
  · rintro h _ ⟨j, hj, rfl⟩
    exact h j hj
  · intro h j hj
    exact h _ ⟨j, hj, rfl⟩

/-- The mask `0x5555` picks the even positions. -/
theorem getLsbD_evenMask (i : Nat) (hi : i < 16) : (0x5555#16).getLsbD i = decide (i % 2 = 0) := by
  have hall : ∀ i < 16, (0x5555#16).getLsbD i = decide (i % 2 = 0) := by decide
  exact hall i hi

/-- The masked difference holds, at each even position, whether the slot there has two different half-bits. -/
theorem getLsbD_slotDifferences (u : CodeUnit) (i : Nat) (hi : i < 16) :
    ((u ^^^ (u >>> 1)) &&& 0x5555#16).getLsbD i = ((u.getLsbD i != u.getLsbD (i + 1)) && decide (i % 2 = 0)) := by
  rw [BitVec.getLsbD_and, BitVec.getLsbD_xor, BitVec.getLsbD_ushiftRight, getLsbD_evenMask i hi, Nat.add_comm 1 i]

/-- Settles O23: the masked difference is the mask exactly when each even position differs from the next. -/
theorem unitValidAsOneExpression : Obligations.UnitValidAsOneExpression := by
  refine fun u => ⟨⟨fun hu => ?_, fun hmask => ?_⟩, unitValid_iff_slots u⟩
  · refine BitVec.eq_of_getLsbD_eq fun i hi => ?_
    rw [getLsbD_slotDifferences u i hi, getLsbD_evenMask i hi]
    rcases Nat.even_or_odd' i with ⟨j, rfl | rfl⟩
    · rw [bne_iff_ne.2 ((unitValid_iff u).1 hu j (by omega)), Bool.true_and]
    · rw [decide_eq_false (by omega), Bool.and_false]
  · refine (unitValid_iff u).2 fun j hj => ?_
    have hbit := congrArg (fun v => v.getLsbD (2 * j)) hmask
    simp only [getLsbD_slotDifferences u (2 * j) (by omega), getLsbD_evenMask (2 * j) (by omega),
      Nat.mul_mod_right, decide_true, Bool.and_true, bne_iff_ne] at hbit
    exact hbit

/-- A slot with two equal half-bits makes the unit invalid. -/
theorem unitValid_eq_false_of_slot (u : CodeUnit) (j : Nat) (hj : j < 8)
    (h : u.getLsbD (2 * j) = u.getLsbD (2 * j + 1)) : unitValid u = false :=
  Bool.eq_false_of_not_eq_true fun hu => (unitValid_iff u).1 hu j hj h

/-- Settles O27: the slot that holds `00` or `11` makes the unit invalid, and the strict policy rejects it. -/
theorem decUnitRejectsInvalidUnits : Obligations.DecUnitRejectsInvalidUnits := by
  intro s u p hp heq
  obtain ⟨j, hj, rfl⟩ := (mem_slotOrder_iff p).1 hp
  exact exec_decUnit_of_invalid u s (unitValid_eq_false_of_slot u j hj heq)

theorem getLsbD_xor_bit (u : CodeUnit) (p i : Nat) (hp : p < 16) :
    (u ^^^ (1#16 <<< p)).getLsbD i = (u.getLsbD i ^^ decide (p = i)) := by
  have hbit := BitVec.getLsbD_twoPow (w := 16) p i
  rw [decide_eq_true hp, Bool.true_and] at hbit
  rw [BitVec.getLsbD_xor, ← hbit]
  rfl

/-- Settles O24: the changed bit becomes equal to the other half-bit of its slot. -/
theorem singleBitErrorIsDetected : Obligations.SingleBitErrorIsDetected := by
  intro s u p hu hp
  have hne := (unitValid_iff u).1 hu (p / 2) (by omega)
  refine exec_decUnit_of_invalid _ s (unitValid_eq_false_of_slot _ (p / 2) (by omega) ?_)
  rw [getLsbD_xor_bit u p _ hp, getLsbD_xor_bit u p _ hp]
  rcases Nat.mod_two_eq_zero_or_one p with hpar | hpar
  · rw [decide_eq_true (by omega), decide_eq_false (by omega), Bool.xor_true, Bool.xor_false]
    exact (Bool.eq_not_of_ne hne.symm).symm
  · rw [decide_eq_false (by omega), decide_eq_true (by omega), Bool.xor_true, Bool.xor_false]
    exact Bool.eq_not_of_ne hne

/-! ### The byte bit by bit -/

/-- Bit 0 of the byte compares the level before with the first second half-bit, every other bit two neighbouring second
half-bits. -/
theorem decByte_bits (u : CodeUnit) (l : Level) (hu : unitValid u = true) :
    ∃ r : Byte, decByteUnder .strict u l = .ok (r, .ofBit (u.getLsbD 7)) ∧
      r.getLsbD 0 = (l.toBit ^^ u.getLsbD 9) ∧
      ∀ k, k + 1 < 8 → r.getLsbD (k + 1) =
        (u.getLsbD ((8 + 2 * k) % 16 + 1) ^^ u.getLsbD ((8 + 2 * (k + 1)) % 16 + 1)) := by
  obtain ⟨r, hr, hbits⟩ := decByte_valid u l hu
  refine ⟨r, hr, hbits 0 (by omega), fun k hk => ?_⟩
  rw [hbits (k + 1) hk, carriedLevel, Level.toBit_ofBit]

/-- Settles O26: the second half-bits of neighbouring slots, at their positions in the unit. -/
theorem decUnitBitsAreHalfBitDifferences : Obligations.DecUnitBitsAreHalfBitDifferences := by
  intro s u hu
  obtain ⟨r, hr, hzero, hsucc⟩ := decByte_bits u s.decLevel hu
  refine ⟨r, exec_decUnit_of_decByte u s r _ hr, hzero, fun k hlo hhi => ?_, hsucc 3 (by omega), fun k hlo hhi => ?_⟩
  · have hk := hsucc (k - 1) (by omega)
    rwa [show k - 1 + 1 = k by omega, show (8 + 2 * (k - 1)) % 16 + 1 = 7 + 2 * k by omega,
      show (8 + 2 * k) % 16 + 1 = 9 + 2 * k by omega] at hk
  · have hk := hsucc (k - 1) (by omega)
    rwa [show k - 1 + 1 = k by omega, show (8 + 2 * (k - 1)) % 16 + 1 = 2 * k - 9 by omega,
      show (8 + 2 * k) % 16 + 1 = 2 * k - 7 by omega] at hk

/-- Settles O28: each DEC.SYM of the run finds the level carried to its slot and delivers the bit at its position. -/
theorem decUnitIsEightDecSyms : Obligations.DecUnitIsEightDecSyms := by
  intro s u hu
  obtain ⟨r, hr, hbits⟩ := decByte_threads_decBit u s.decLevel hu
  obtain ⟨v, hrun, hv⟩ := runOps_range (fun k => .decSym (slotSymbol u ((8 + 2 * k) % 16)))
    (fun k => some { bit := some (r.getLsbD k) }) (fun k t => t.decLevel = carriedLevel u s.decLevel k) 8 s
    (fun k hk t ht => ⟨_, exec_decSym_of_decBit _ t _ _ (ht ▸ hbits k hk), rfl, rfl⟩) rfl
  exact ⟨_, v, r, exec_decUnit_of_decByte u s r _ hr, rfl, hrun, hv⟩

/-! ### The inverse of the encoder -/

/-- The levels the decoder carries through a coded unit are the encoder's. -/
theorem carriedLevel_encByte (d : Byte) (l : Level) (i : Nat) (hi : i ≤ 8) :
    carriedLevel (encByte d l).1 l i = encodedLevel d l i := by
  cases i with
  | zero => exact (encodedLevel_zero d l).symm
  | succ i =>
    obtain ⟨-, hodd⟩ := encByte_slot_bits d l i hi
    rw [carriedLevel, hodd, encodedLevel]

theorem decByte_encByte (d : Byte) (l : Level) :
    decByteUnder .strict (encByte d l).1 l = .ok (d, (encByte d l).2) := by
  obtain ⟨hvalid, -, -⟩ := encByte_spec d l
  obtain ⟨r, hr, hbits⟩ := decByte_threads_decBit (encByte d l).1 l hvalid
  have hrd : r = d := by
    refine BitVec.eq_of_getLsbD_eq fun k hk => ?_
    have hk' := hbits k hk
    rw [slotSymbol_encByte d l k hk, carriedLevel_encByte d l k (by omega), decBit_encBit] at hk'
    exact (congrArg Prod.fst (Except.ok.inj hk')).symm
  rw [hr, hrd, carriedLevel_encByte d l 8 (by omega), encByte_level]

/-- The running parities of a decoded byte are the levels its unit carries. -/
theorem runningParity_of_decByte (u : CodeUnit) (l : Level) (r : Byte)
    (hbits : ∀ k, k < 8 → r.getLsbD k = ((carriedLevel u l k).toBit ^^ u.getLsbD ((8 + 2 * k) % 16 + 1)))
    (i : Nat) (hi : i ≤ 8) : runningParity l.toBit r i = (carriedLevel u l i).toBit := by
  induction i with
  | zero => rfl
  | succ i ih =>
    rw [runningParity_succ, ih (by omega), hbits i (by omega), ← Bool.xor_assoc, Bool.xor_self, Bool.false_xor,
      carriedLevel, Level.toBit_ofBit]

theorem encByte_of_decByte (u : CodeUnit) (l k : Level) (r : Byte) (hu : unitValid u = true)
    (h : decByteUnder .strict u l = .ok (r, k)) : encByte r l = (u, k) := by
  obtain ⟨r', hr', hbits⟩ := decByte_valid u l hu
  obtain ⟨rfl, rfl⟩ := Prod.mk.inj (Except.ok.inj (hr'.symm.trans h))
  have hparity := runningParity_of_decByte u l r' hbits
  obtain ⟨hvalid, hodd, hlevel⟩ := encByte_spec r' l
  refine Prod.ext (unitValid_ext_slots _ _ hvalid hu fun i hi => ?_) ?_
  · rw [hodd i hi, hparity (i + 1) hi, carriedLevel, Level.toBit_ofBit]
  · rw [hlevel, hparity 8 (by omega), Level.ofBit_toBit]
    rfl

/-- Settles O29: `DecByte` and `EncByte` invert each other from the same level, and leave the same level. -/
theorem byteRoundTripBothWays : Obligations.ByteRoundTripBothWays := by
  refine ⟨fun s d heq => ?_, fun s u heq hu => ?_⟩
  · have hdec := decByte_encByte d s.encLevel
    exact ⟨_, _, _, exec_encByte_of_encByte d s _ _ rfl, rfl, exec_decUnit_of_decByte _ _ _ _ (heq ▸ hdec), rfl, rfl,
      rfl⟩
  · obtain ⟨r, hr, -⟩ := decByte_valid u s.decLevel hu
    have henc := encByte_of_decByte u s.decLevel _ r hu hr
    exact ⟨_, r, _, exec_decUnit_of_decByte u s r _ hr, rfl, exec_encByte_of_encByte r _ _ _ (heq ▸ henc), rfl, rfl⟩

/-- Settles O30: the byte the unit decodes to codes to it, and any other that does decodes to the same. -/
theorem eachValidUnitCodesOneByte : Obligations.EachValidUnitCodesOneByte := by
  intro l u hu
  obtain ⟨r, hr, -⟩ := decByte_valid u l hu
  refine ⟨r, congrArg Prod.fst (encByte_of_decByte u l _ r hu hr), ?_⟩
  rintro d rfl
  exact congrArg Prod.fst (Except.ok.inj ((decByte_encByte d l).symm.trans hr))

/-! ### A wrong level before -/

/-- From the other level only bit 0 of the byte changes, and the level after is the same (R109). -/
theorem decByte_flip (u : CodeUnit) (l k : Level) (r : Byte) (hu : unitValid u = true)
    (h : decByteUnder .strict u l = .ok (r, k)) : decByteUnder .strict u l.flip = .ok (r ^^^ 0x01#8, k) := by
  obtain ⟨r₁, hr₁, hzero₁, hsucc₁⟩ := decByte_bits u l hu
  obtain ⟨r₂, hr₂, hzero₂, hsucc₂⟩ := decByte_bits u l.flip hu
  obtain ⟨rfl, rfl⟩ := Prod.mk.inj (Except.ok.inj (hr₁.symm.trans h))
  have hbyte : r₂ = r₁ ^^^ 0x01#8 := by
    refine BitVec.eq_of_getLsbD_eq fun i hi => ?_
    rw [BitVec.getLsbD_xor, BitVec.getLsbD_one, decide_eq_true (by omega), Bool.true_and]
    cases i with
    | zero => rw [hzero₁, hzero₂, Level.toBit_flip, decide_eq_true rfl, Bool.xor_true, Bool.not_xor]
    | succ i => rw [hsucc₁ i hi, hsucc₂ i hi, decide_eq_false (Nat.succ_ne_zero i), Bool.xor_false]
  rw [hr₂, hbyte]

/-- Settles O31: the two runs of DEC.UNIT differ in the level that enters bit 0 only. -/
theorem wrongLevelSpoilsOnlyBitZero : Obligations.WrongLevelSpoilsOnlyBitZero := by
  intro s u hu
  obtain ⟨r, hr, -⟩ := decByte_valid u s.decLevel hu
  exact ⟨r, _, exec_decUnit_of_decByte u s r _ hr,
    exec_decUnit_of_decByte u (s.setDecLevel s.decLevel.flip) _ _ (decByte_flip u s.decLevel _ r hu hr)⟩

/-! ### The permissive policy -/

theorem getLsbD_placeSymbol (acc : CodeUnit) (p : Nat) (x : Symbol) (i : Nat) (hp : p + 1 < 16) :
    (placeSymbol acc p x).getLsbD i =
      if i = p + 1 then secondHalf x else if i = p then firstHalf x else acc.getLsbD i := by
  rw [placeSymbol, getLsbD_setBit _ _ _ _ _ hp, getLsbD_setBit _ _ _ _ _ (by omega)]

theorem asIf01_succ (u : CodeUnit) (k : Nat) :
    asIf01 u (k + 1) = if u.getLsbD (2 * k) = u.getLsbD (2 * k + 1) then placeSymbol (asIf01 u k) (2 * k) 0b01#2
      else asIf01 u k := by
  rw [asIf01, symbolValid_slotSymbol]
  by_cases h : u.getLsbD (2 * k) = u.getLsbD (2 * k + 1) <;> simp [h]

/-- Repairing a slot leaves the other slots alone. -/
theorem asIf01_succ_other (u : CodeUnit) (k i : Nat) (hk : k < 8) (heven : i ≠ 2 * k) (hodd : i ≠ 2 * k + 1) :
    (asIf01 u (k + 1)).getLsbD i = (asIf01 u k).getLsbD i := by
  rw [asIf01_succ]
  split_ifs
  · rw [getLsbD_placeSymbol _ _ _ _ (by omega), if_neg hodd, if_neg heven]
  · rfl

/-- The slots still to come are as they were. -/
theorem asIf01_unrepaired (u : CodeUnit) (n i : Nat) (hn : n ≤ 8) (hi : 2 * n ≤ i) :
    (asIf01 u n).getLsbD i = u.getLsbD i := by
  induction n with
  | zero => rfl
  | succ n ih => rw [asIf01_succ_other u n i (by omega) (by omega) (by omega), ih (by omega) (by omega)]

/-- The slot repaired last: `10` is kept, everything else is `01`. -/
theorem asIf01_succ_self (u : CodeUnit) (k : Nat) (hk : k < 8) :
    (asIf01 u (k + 1)).getLsbD (2 * k) = (u.getLsbD (2 * k) && !u.getLsbD (2 * k + 1)) ∧
    (asIf01 u (k + 1)).getLsbD (2 * k + 1) = !(u.getLsbD (2 * k) && !u.getLsbD (2 * k + 1)) := by
  rw [asIf01_succ]
  split_ifs with heq
  · rw [getLsbD_placeSymbol _ _ _ _ (by omega), getLsbD_placeSymbol _ _ _ _ (by omega), if_neg (by omega), if_pos rfl,
      if_pos rfl, heq, Bool.and_not_self]
    exact ⟨rfl, rfl⟩
  · rw [asIf01_unrepaired u k _ (by omega) (by omega), asIf01_unrepaired u k _ (by omega) (by omega),
      Bool.eq_not_of_ne heq, Bool.and_self, Bool.not_not]
    exact ⟨rfl, rfl⟩

/-- Every slot repaired so far: `10` is kept, everything else is `01`. -/
theorem asIf01_slot_bits (u : CodeUnit) (n j : Nat) (hn : n ≤ 8) (hj : j < n) :
    (asIf01 u n).getLsbD (2 * j) = (u.getLsbD (2 * j) && !u.getLsbD (2 * j + 1)) ∧
    (asIf01 u n).getLsbD (2 * j + 1) = !(u.getLsbD (2 * j) && !u.getLsbD (2 * j + 1)) := by
  induction n with
  | zero => omega
  | succ n ih =>
    by_cases hlast : j = n
    · subst hlast
      exact asIf01_succ_self u j (by omega)
    · rw [asIf01_succ_other u n _ (by omega) (by omega) (by omega),
        asIf01_succ_other u n _ (by omega) (by omega) (by omega)]
      exact ih (by omega) (by omega)

theorem unitValid_asIf01 (u : CodeUnit) : unitValid (asIf01 u 8) = true := by
  refine (unitValid_iff _).2 fun j hj => ?_
  obtain ⟨heven, hodd⟩ := asIf01_slot_bits u 8 j (Nat.le_refl 8) hj
  rw [heven, hodd]
  exact (Bool.not_ne_self _).symm

/-- The second half-bit of each slot of the repaired unit: Low after `10`, High after anything else. -/
theorem asIf01_secondHalf (u : CodeUnit) (i : Nat) :
    (asIf01 u 8).getLsbD ((8 + 2 * i) % 16 + 1) =
      !(u.getLsbD ((8 + 2 * i) % 16) && !u.getLsbD ((8 + 2 * i) % 16 + 1)) := by
  obtain ⟨-, hodd⟩ := asIf01_slot_bits u 8 ((4 + i) % 8) (Nat.le_refl 8) (Nat.mod_lt _ (by decide))
  rw [symbolSlot_eq_two_mul, hodd]

theorem asIf01_of_unitValid (u : CodeUnit) (hu : unitValid u = true) : asIf01 u 8 = u := by
  refine unitValid_ext_slots _ _ (unitValid_asIf01 u) hu fun i _ => ?_
  rw [asIf01_secondHalf, firstHalf_of_unitValid u hu i, Bool.and_self, Bool.not_not]

/-- The permissive byte decoder reads a unit as the strict one reads the repaired unit (R87). -/
theorem decByte_permissive_eq_asIf01 (u : CodeUnit) (l : Level) :
    decByteUnder .permissive u l = decByteUnder .strict (asIf01 u 8) l := by
  obtain ⟨r, hr, hbits⟩ := decByte_permissive u l
  obtain ⟨r', hr', hbits'⟩ := decByte_valid (asIf01 u 8) l (unitValid_asIf01 u)
  have hbyte : r = r' := by
    refine BitVec.eq_of_getLsbD_eq fun k hk => ?_
    rw [hbits k hk, hbits' k hk, asIf01_secondHalf]
    cases k with
    | zero => rfl
    | succ k => rw [carriedLevel, Level.toBit_ofBit, asIf01_secondHalf]
  have hlevel := asIf01_secondHalf u 7
  rw [hr, hr', hbyte]
  exact congrArg (fun b => Except.ok (r', Level.ofBit b)) hlevel.symm

theorem decByte_permissive_of_unitValid (u : CodeUnit) (l : Level) (hu : unitValid u = true) :
    decByteUnder .permissive u l = decByteUnder .strict u l := by
  rw [decByte_permissive_eq_asIf01, asIf01_of_unitValid u hu]

/-- The permissive bit decoder reads `00` and `11` as the strict one reads `01` (R76). -/
theorem decBit_repaired (x : Symbol) (l : Level) :
    decBit (if symbolValid x then x else 0b01#2) l = .ok (decBitPermissive x l) := by
  by_cases hx : x = 0b10#2
  · subst hx
    rfl
  · have hrepaired : (if symbolValid x then x else 0b01#2) = 0b01#2 := by
      split_ifs with hvalid
      · simpa [symbolValid, hx] using hvalid
      · rfl
    rw [hrepaired, decBitPermissive, if_neg hx]
    rfl

/-- Settles O32: the permissive decoders are the strict ones on the repaired unit and symbol, which the strict policy
never rejects. -/
theorem permissiveDecoderReadsInvalidAs01 : Obligations.PermissiveDecoderReadsInvalidAs01 := by
  refine ⟨fun s u => ?_, asIf01_of_unitValid, fun s x => ?_⟩
  · obtain ⟨-, hrejected⟩ | ⟨out, hperm, hout, -⟩ := decUnitUnder_cases .permissive u s
    · cases hrejected
    · rw [decByte_permissive_eq_asIf01] at hout
      exact ⟨out.1, out.2, hperm, exec_decUnit_of_decByte _ s out.1 out.2 hout⟩
  · obtain ⟨-, hrejected⟩ | ⟨out, hperm, hout, -⟩ := decSymUnder_cases .permissive x s
    · cases hrejected
    · have hdec := (decBit_repaired x s.decLevel).trans hout
      rw [hperm, exec_decSym_of_decBit _ s out.1 out.2 hdec]
      rfl

end Sys2Proof.Proofs.ByteDecoder
end

section
/-! Byte and unit sequences (spec/43_laws.md, spec/70_reset_and_hazards.md): coding and decoding sequences, their
round trip, parts and joints of a code, the lost unit boundary, and the half-bits in order. -/

namespace Sys2Proof.Proofs.Sequences
open Sys2Proof.Machine Sys2Proof.Proofs.ByteCoder Sys2Proof.Proofs.BufferCoder Sys2Proof.Proofs.ByteEncoder
  Sys2Proof.Proofs.ByteDecoder

/-! ### Codes -/

/-- The code of a sequence is the code of its beginning, then that of the rest from the level the beginning leaves. -/
theorem encodeUnits_append (l : Level) (as bs : List Byte) :
    encodeUnits l (as ++ bs) = ((encodeUnits l as).1 ++ (encodeUnits (encodeUnits l as).2 bs).1,
      (encodeUnits (encodeUnits l as).2 bs).2) := by
  induction as generalizing l with
  | nil => rfl
  | cons a as ih => rw [List.cons_append, encodeUnits_cons, encodeUnits_cons, ih]; rfl

theorem storeUnits_append (us vs : List CodeUnit) : storeUnits (us ++ vs) = storeUnits us ++ storeUnits vs := by
  induction us with
  | nil => rfl
  | cons u us ih => rw [List.cons_append, storeUnits_cons, storeUnits_cons, ih]; rfl

/-- The level after a sequence is the one before XOR the parity of all its bits (R108). -/
theorem encodeUnits_level (l : Level) (ds : List Byte) :
    (encodeUnits l ds).2 = .ofBit (l.toBit ^^ parityOf ds) := by
  induction ds generalizing l with
  | nil => rw [parityOf, Bool.xor_false, Level.ofBit_toBit]; rfl
  | cons d ds ih => rw [encodeUnits_cons, ih, encByte_level_eq_parity, Level.toBit_ofBit, parityOf, Bool.xor_assoc]

theorem encodeUnits_flip (l : Level) (ds : List Byte) :
    encodeUnits l.flip ds = ((encodeUnits l ds).1.map (fun u => ~~~u), (encodeUnits l ds).2.flip) := by
  induction ds generalizing l with
  | nil => rfl
  | cons d ds ih => rw [encodeUnits_cons, encodeUnits_cons, encByte_flip, ih, List.map_cons]

theorem highByte_not (u : CodeUnit) : highByte (~~~u) = ~~~highByte u := by
  refine BitVec.eq_of_getLsbD_eq fun i hi => ?_
  rw [getLsbD_highByte, BitVec.getLsbD_not, BitVec.getLsbD_not, getLsbD_highByte, decide_eq_true hi,
    decide_eq_true (by omega)]
  simp only [Bool.true_and]

theorem lowByte_not (u : CodeUnit) : lowByte (~~~u) = ~~~lowByte u := by
  refine BitVec.eq_of_getLsbD_eq fun i hi => ?_
  rw [getLsbD_lowByte, BitVec.getLsbD_not, BitVec.getLsbD_not, getLsbD_lowByte, decide_eq_true hi,
    decide_eq_true (by omega)]
  simp only [Bool.true_and]

theorem storeUnits_map_not (us : List CodeUnit) :
    storeUnits (us.map fun u => ~~~u) = (storeUnits us).map fun b => ~~~b := by
  induction us with
  | nil => rfl
  | cons u us ih =>
    rw [List.map_cons, storeUnits_cons, storeUnits_cons, ih, List.map_cons, List.map_cons, highByte_not, lowByte_not]

/-- Settles O48: after odd parity the second code starts from Low, the other level of High. -/
theorem concatenationComplementsAfterOddParity : Obligations.ConcatenationComplementsAfterOddParity := by
  intro as bs
  rw [enc, enc, enc, encodeUnits_append, storeUnits_append, encodeUnits_level]
  cases parityOf as with
  | false => rfl
  | true =>
    have hlow : Level.ofBit (Level.high.toBit ^^ true) = Level.high.flip := rfl
    rw [hlow, encodeUnits_flip, storeUnits_map_not]
    rfl

/-! ### Decoding -/

theorem dec_of_decodeUnits (es ds : List Byte) (k : Level)
    (h : decodeUnits .strict .high (loadUnits es) = .ok (ds, k)) : dec es = .ok ds := by
  rw [dec, h]
  rfl

/-- Decoding inverts coding from the same level, whatever units follow the code. -/
theorem decodeUnits_encodeUnits_append (l k : Level) (ds rs : List Byte) (us : List CodeUnit)
    (h : decodeUnits .strict (encodeUnits l ds).2 us = .ok (rs, k)) :
    decodeUnits .strict l ((encodeUnits l ds).1 ++ us) = .ok (ds ++ rs, k) := by
  induction ds generalizing l with
  | nil => exact h
  | cons d ds ih => exact decodeUnits_cons _ _ _ _ _ _ (decByte_encByte d l) (ih (encByte d l).2 h)

theorem decodeUnits_encodeUnits (l : Level) (ds : List Byte) :
    decodeUnits .strict l (encodeUnits l ds).1 = .ok (ds, (encodeUnits l ds).2) := by
  have h := decodeUnits_encodeUnits_append l _ ds [] [] (decodeUnits_nil .strict (encodeUnits l ds).2)
  rwa [List.append_nil, List.append_nil] at h

theorem dec_enc (ds : List Byte) : dec (enc ds) = .ok ds := by
  refine dec_of_decodeUnits _ ds (encodeUnits .high ds).2 ?_
  rw [enc, loadUnits_storeUnits]
  exact decodeUnits_encodeUnits .high ds

/-- Valid units decode, and coding what they decode to gives them back. -/
theorem encodeUnits_decodeUnits (l : Level) (us : List CodeUnit) (hu : ∀ u ∈ us, unitValid u = true) :
    ∃ ds k, decodeUnits .strict l us = .ok (ds, k) ∧ encodeUnits l ds = (us, k) := by
  induction us generalizing l with
  | nil => exact ⟨[], l, rfl, rfl⟩
  | cons u us ih =>
    obtain ⟨hvalid, hrest⟩ := List.forall_mem_cons.1 hu
    obtain ⟨r, hr, -⟩ := decByte_valid u l hvalid
    obtain ⟨ds, k, hds, henc⟩ := ih (.ofBit (u.getLsbD 7)) hrest
    refine ⟨r :: ds, k, decodeUnits_cons _ _ _ _ _ _ hr hds, ?_⟩
    rw [encodeUnits_cons, encByte_of_decByte u l _ r hvalid hr, henc]

/-- Stored valid units decode to a sequence that codes to them. -/
theorem enc_dec (es : List Byte) (heven : es.length % 2 = 0) (hu : ∀ u ∈ loadUnits es, unitValid u = true) :
    ∃ ds, dec es = .ok ds ∧ enc ds = es := by
  obtain ⟨ds, k, hds, henc⟩ := encodeUnits_decodeUnits .high (loadUnits es) hu
  refine ⟨ds, dec_of_decodeUnits es ds k hds, ?_⟩
  rw [enc, henc, storeUnits_loadUnits es heven]

/-- Settles O42: both directions from High. -/
theorem sequenceRoundTripBothWays : Obligations.SequenceRoundTripBothWays := ⟨dec_enc, enc_dec⟩

/-- Settles O43: the decoded sequence codes to the one it came from, whose length is twice its own. -/
theorem encodeDoublesAndDecodeHalves : Obligations.EncodeDoublesAndDecodeHalves := by
  refine ⟨length_enc, fun es heven hu => ?_⟩
  obtain ⟨ds, hdec, henc⟩ := enc_dec es heven hu
  have hlen := length_enc ds
  rw [henc] at hlen
  exact ⟨ds, hdec, by omega⟩

/-! ### Joints -/

theorem eq_flip_of_ne (l k : Level) (h : k ≠ l) : k = l.flip := by
  cases l <;> cases k <;> simp [Level.flip] at h ⊢

/-- The code of a sequence decoded from a level other than its own: bit 0 of its first byte is wrong and all else right
(R109). -/
theorem decodeUnits_encodeUnits_from (l k : Level) (b : Byte) (bs : List Byte) :
    decodeUnits .strict k (encodeUnits l (b :: bs)).1 =
      .ok ((if k = l then b else b ^^^ 0x01#8) :: bs, (encodeUnits l (b :: bs)).2) := by
  by_cases hk : k = l
  · rw [hk, if_pos rfl, decodeUnits_encodeUnits]
  · obtain ⟨hvalid, -, -⟩ := encByte_spec b l
    rw [if_neg hk, eq_flip_of_ne l k hk]
    exact decodeUnits_cons _ _ _ _ _ _ (decByte_flip _ l _ b hvalid (decByte_encByte b l))
      (decodeUnits_encodeUnits (encByte b l).2 bs)

/-- Settles O49: the second code is decoded from the level the first leaves, which is Low after odd parity. -/
theorem joinedCodesSpoilOneBit : Obligations.JoinedCodesSpoilOneBit := by
  intro as bs b
  have hjoint := decodeUnits_encodeUnits_append .high _ as _ _
    (decodeUnits_encodeUnits_from .high (encodeUnits .high as).2 b bs)
  refine dec_of_decodeUnits _ _ (encodeUnits .high (b :: bs)).2 ?_
  rw [enc, enc, ← storeUnits_append, loadUnits_storeUnits, hjoint, encodeUnits_level]
  cases parityOf as <;> rfl

/-! ### Beginnings -/

theorem take_storeUnits (us : List CodeUnit) (k : Nat) : (storeUnits us).take (2 * k) = storeUnits (us.take k) := by
  induction us generalizing k with
  | nil => rw [storeUnits_nil, List.take_nil, List.take_nil, storeUnits_nil]
  | cons u us ih =>
    cases k with
    | zero => rfl
    | succ k =>
      rw [storeUnits_cons, Nat.mul_succ, List.take_succ_cons, List.take_succ_cons, ih, List.take_succ_cons,
        storeUnits_cons]

theorem take_encodeUnits (l : Level) (ds : List Byte) (k : Nat) :
    (encodeUnits l ds).1.take k = (encodeUnits l (ds.take k)).1 := by
  induction ds generalizing l k with
  | nil => rw [List.take_nil]; exact List.take_nil
  | cons d ds ih =>
    cases k with
    | zero => rfl
    | succ k => rw [encodeUnits_cons, List.take_succ_cons, ih, List.take_succ_cons, encodeUnits_cons]

/-- Settles O50: an even-length beginning of a code is the code of a beginning. -/
theorem evenBeginningDecodesToBeginning : Obligations.EvenBeginningDecodesToBeginning := by
  intro ds k
  have hcode : (enc ds).take (2 * k) = enc (ds.take k) := by rw [enc, enc, take_storeUnits, take_encodeUnits]
  rw [hcode, dec_enc]

/-! ### The lost unit boundary -/

/-- The bytes whose nibbles are those of a sequence from its second nibble on (R148). -/
def regrouped (a : Byte) (as : List Byte) : List Byte :=
  match as with
  | [] => []
  | b :: bs => regroup a b :: regrouped b bs

theorem length_regrouped (a : Byte) (as : List Byte) : (regrouped a as).length = as.length := by
  induction as generalizing a with
  | nil => rfl
  | cons b bs ih => rw [regrouped, List.length_cons, List.length_cons, ih]

theorem getElem?_regrouped (a : Byte) (as : List Byte) (j : Nat) (hj : j < as.length) :
    ∃ x y, (a :: as)[j]? = some x ∧ as[j]? = some y ∧ (regrouped a as)[j]? = some (regroup x y) := by
  induction as generalizing a j with
  | nil => exact absurd hj (Nat.not_lt_zero j)
  | cons b bs ih =>
    cases j with
    | zero => exact ⟨a, b, rfl, rfl, rfl⟩
    | succ j => exact ih b j (Nat.lt_of_succ_lt_succ hj)

theorem lowNibble_regroup (a b : Byte) : (regroup a b).extractLsb' 0 4 = a.extractLsb' 4 4 := by
  refine BitVec.eq_of_getLsbD_eq fun i hi => ?_
  rw [BitVec.getLsbD_extractLsb', regroup, BitVec.getLsbD_append, Nat.zero_add, decide_eq_true hi, if_pos hi,
    Bool.true_and]

theorem highNibble_regroup (a b : Byte) : (regroup a b).extractLsb' 4 4 = b.extractLsb' 0 4 := by
  refine BitVec.eq_of_getLsbD_eq fun i hi => ?_
  rw [BitVec.getLsbD_extractLsb', regroup, BitVec.getLsbD_append, decide_eq_true hi, if_neg (by omega),
    Nat.add_sub_cancel_left, Bool.true_and]

/-- `NibEnc` of the high nibble, from the level before it: the low byte of the unit and the level after the byte. -/
theorem nibEnc_highNibble (a : Byte) (l : Level) :
    nibEnc (a.extractLsb' 4 4) (encodedLevel a l 4) = (lowByte (encByte a l).1, (encByte a l).2) := by
  obtain ⟨-, hlevel⟩ := nibEnc_nibble a l 4
  rw [lowByte_encByte, encByte_level]
  exact Prod.ext rfl hlevel

/-- `NibEnc` of the low nibble: the high byte of the unit and the level before the high nibble. -/
theorem nibEnc_lowNibble (b : Byte) (l : Level) :
    nibEnc (b.extractLsb' 0 4) l = (highByte (encByte b l).1, encodedLevel b l 4) := by
  rw [highByte_encByte, encodedLevel_zero]
  exact Prod.ext rfl (nibEnc_low_level b l)

/-- The second byte of one unit and the first of the next are the code of the two nibbles between them. -/
theorem encByte_regroup (a b : Byte) (l : Level) :
    encByte (regroup a b) (encodedLevel a l 4) =
      (joinBytes (lowByte (encByte a l).1) (highByte (encByte b (encByte a l).2).1),
        encodedLevel b (encByte a l).2 4) := by
  rw [encByte_eq_nibEnc, ← nibEnc_low_level (regroup a b), lowNibble_regroup, highNibble_regroup, nibEnc_highNibble,
    nibEnc_lowNibble, joinBytes_eq_append]

/-- A code from its second byte on is the code of the regrouped bytes, from the level before the first high nibble. -/
theorem drop_storeUnits_encodeUnits (l : Level) (a : Byte) (as : List Byte) :
    ((storeUnits (encodeUnits l (a :: as)).1).drop 1).take (2 * as.length) =
      storeUnits (encodeUnits (encodedLevel a l 4) (regrouped a as)).1 := by
  induction as generalizing l a with
  | nil => rfl
  | cons b bs ih =>
    have hrest := ih (encByte a l).2 b
    rw [encodeUnits_cons, storeUnits_cons, List.drop_succ_cons, List.drop_zero] at hrest ⊢
    rw [encodeUnits_cons, storeUnits_cons, List.length_cons, Nat.mul_succ, List.take_succ_cons, List.take_succ_cons,
      hrest, regrouped, encodeUnits_cons, encByte_regroup, storeUnits_cons, highByte_joinBytes, lowByte_joinBytes]

/-- The level before the high nibble is High exactly when the low nibble has even parity. -/
theorem high_eq_encodedLevel_iff (a : Byte) : Level.high = encodedLevel a .high 4 ↔ runningParity false a 4 = false := by
  have hparity : runningParity Level.high.toBit a 4 = !runningParity false a 4 := runningParity_not false a 4
  rw [encodedLevel, hparity]
  cases runningParity false a 4 <;> decide

/-- Settles O51: the shifted code is that of the regrouped bytes, decoded from High whatever level it began at. -/
theorem lostUnitBoundaryRegroupsNibbles : Obligations.LostUnitBoundaryRegroupsNibbles := by
  intro a as
  have hload : loadUnits (((enc (a :: as)).drop 1).take (2 * as.length)) =
      (encodeUnits (encodedLevel a .high 4) (regrouped a as)).1 := by
    rw [enc, drop_storeUnits_encodeUnits, loadUnits_storeUnits]
  have hget := getElem?_regrouped a as
  cases as with
  | nil => exact ⟨[], dec_of_decodeUnits _ _ .high (by rw [hload]; rfl), rfl, fun j hj => absurd hj (Nat.not_lt_zero j)⟩
  | cons b bs =>
    rw [regrouped] at hload hget
    refine ⟨_, dec_of_decodeUnits _ _ _ (hload ▸ decodeUnits_encodeUnits_from _ _ _ _), ?_, fun j hj => ?_⟩
    · rw [List.length_cons, List.length_cons, length_regrouped]
    · obtain ⟨x, y, hx, hy, hxy⟩ := hget j hj
      refine ⟨x, y, hx, hy, ?_⟩
      cases j with
      | zero =>
        obtain rfl : a = x := Option.some.inj hx
        obtain rfl : b = y := Option.some.inj hy
        rw [List.getElem?_cons_zero]
        cases hparity : runningParity false a 4 with
        | false => rw [if_pos ((high_eq_encodedLevel_iff a).2 hparity), if_neg nofun]
        | true =>
          rw [if_neg (by rw [high_eq_encodedLevel_iff, hparity]; exact nofun), if_pos ⟨rfl, rfl⟩]
      | succ j =>
        rw [List.getElem?_cons_succ] at hxy ⊢
        exact hxy.trans (congrArg some (if_neg fun h => Nat.succ_ne_zero j h.1).symm)

/-! ### Half-bits in order -/

theorem firstHalf_slotSymbol (u : CodeUnit) (p : Nat) : firstHalf (slotSymbol u p) = u.getLsbD p := by
  unfold firstHalf slotSymbol
  cases u.getLsbD p <;> cases u.getLsbD (p + 1) <;> rfl

theorem secondHalf_slotSymbol (u : CodeUnit) (p : Nat) : secondHalf (slotSymbol u p) = u.getLsbD (p + 1) := by
  unfold secondHalf slotSymbol
  cases u.getLsbD p <;> cases u.getLsbD (p + 1) <;> rfl

/-- The two half-bits of a unit's slots, in the order of the symbols `a` to `a + n - 1`. -/
def slotBits (u : CodeUnit) (a n : Nat) : List Bit :=
  match n with
  | 0 => []
  | k + 1 => u.getLsbD ((8 + 2 * a) % 16) :: u.getLsbD ((8 + 2 * a) % 16 + 1) :: slotBits u (a + 1) k

/-- The slots in the order of the symbols are the stored bytes of the unit in order, each from bit 0 up. -/
theorem slotBits_eq_stored (u : CodeUnit) :
    slotBits u 0 8 = (List.range 8).map (fun i => (highByte u).getLsbD i) ++
      (List.range 8).map fun i => (lowByte u).getLsbD i := by
  simp only [getLsbD_highByte, getLsbD_lowByte]
  rfl

/-- The bits of a byte from position `a` on produce the half-bits of their slots, and leave the level carried on. -/
theorem halfBits_byte (d : Byte) (l : Level) (rest : List Bit) (n a : Nat) (h : a + n ≤ 8) :
    halfBits (encodedLevel d l a) ((List.range' a n).map (fun i => d.getLsbD i) ++ rest) =
      slotBits (encByte d l).1 a n ++ halfBits (encodedLevel d l (a + n)) rest := by
  induction n generalizing a with
  | zero => rfl
  | succ n ih =>
    rw [List.range'_succ, List.map_cons, List.cons_append, halfBits, encBit_encodedLevel d l a (by omega),
      firstHalf_slotSymbol, secondHalf_slotSymbol, ih (a + 1) (by omega), slotBits, Nat.add_right_comm, Nat.add_assoc]
    rfl

theorem bitsOf_storeUnits_encodeUnits (l : Level) (ds : List Byte) :
    bitsOf (storeUnits (encodeUnits l ds).1) = halfBits l (bitsOf ds) := by
  induction ds generalizing l with
  | nil => rfl
  | cons d ds ih =>
    have hbyte := halfBits_byte d l (bitsOf ds) 8 0 (Nat.le_refl 8)
    rw [encodedLevel_zero, Nat.zero_add, ← encByte_level, slotBits_eq_stored, ← ih, ← List.range_eq_range'] at hbyte
    rw [encodeUnits_cons, storeUnits_cons, bitsOf, bitsOf, bitsOf, hbyte, List.append_assoc]

/-- Settles O52: unit by unit, the two stored bytes are the half-bits of the eight slots. -/
theorem storedBitsAreHalfBitsInOrder : Obligations.StoredBitsAreHalfBitsInOrder := fun ds =>
  bitsOf_storeUnits_encodeUnits .high ds

end Sys2Proof.Proofs.Sequences
end

section
/-! ENCODE and DECODE (spec/42_buffer_coder.md): the outcome of each, where each output byte lies, the permissive DECODE
(R94), the round trip through memory (R100), and both as a START and the byte operations (R115). -/

namespace Sys2Proof.Proofs.Buffers
open Sys2Proof.Machine Sys2Proof.Proofs.Outcomes Sys2Proof.Proofs.ByteCoder Sys2Proof.Proofs.BufferCoder
  Sys2Proof.Proofs.Effects Sys2Proof.Proofs.Steps Sys2Proof.Proofs.Interleaving Sys2Proof.Proofs.ByteDecoder
  Sys2Proof.Proofs.Sequences

/-! ### Units and bytes by position -/

/-- Unit `k` is the code of byte `k` from the level the bytes before it leave. -/
theorem getElem?_encodeUnits (l : Level) (ds : List Byte) (k : Nat) (d : Byte) (h : ds[k]? = some d) :
    (encodeUnits l ds).1[k]? = some (encByte d (encodeUnits l (ds.take k)).2).1 ∧
    (encodeUnits l (ds.take (k + 1))).2 = (encByte d (encodeUnits l (ds.take k)).2).2 := by
  induction ds generalizing l k with
  | nil => cases h
  | cons e ds ih =>
    cases k with
    | zero =>
      obtain rfl : e = d := Option.some.inj h
      exact ⟨rfl, rfl⟩
    | succ k => exact ih (encByte e l).2 k h

/-- The two stored bytes of unit `k` (R34). -/
theorem getElem?_storeUnits (us : List CodeUnit) (k : Nat) (u : CodeUnit) (h : us[k]? = some u) :
    (storeUnits us)[2 * k]? = some (highByte u) ∧ (storeUnits us)[2 * k + 1]? = some (lowByte u) := by
  induction us generalizing k with
  | nil => cases h
  | cons v us ih =>
    cases k with
    | zero =>
      obtain rfl : v = u := Option.some.inj h
      exact ⟨rfl, rfl⟩
    | succ k => exact ih k h

/-- Unit `k` of an input in memory joins its bytes `2k` and `2k + 1` (R35). -/
theorem getElem?_loadUnits_readBytes (m : Memory) (a n k : Nat) (h : k < n) :
    (loadUnits (m.readBytes a (2 * n)))[k]? = some (joinBytes (m.read (a + 2 * k)) (m.read (a + 2 * k + 1))) := by
  induction n generalizing a k with
  | zero => omega
  | succ n ih =>
    rw [loadUnits_readBytes]
    cases k with
    | zero => rfl
    | succ k =>
      rw [List.getElem?_cons_succ, ih (a + 2) k (by omega), show a + 2 + 2 * k = a + 2 * (k + 1) by omega]

/-- The level before unit `k`, as DECODE carries it: the one given, then bit 7 of each unit (R84). -/
def decodedLevel (l : Level) (us : List CodeUnit) (k : Nat) : Level :=
  match k with
  | 0 => l
  | j + 1 => .ofBit ((us.getD j 0).getLsbD 7)

theorem decodedLevel_cons (l : Level) (u : CodeUnit) (us : List CodeUnit) (k : Nat) :
    decodedLevel l (u :: us) (k + 1) = decodedLevel (.ofBit (u.getLsbD 7)) us k := by
  cases k <;> rfl

/-- Byte `k` of decoded valid units is unit `k` decoded from the level carried to it. -/
theorem decodeUnits_valid (l : Level) (us : List CodeUnit) (hu : ∀ u ∈ us, unitValid u = true) :
    ∃ rs, decodeUnits .strict l us = .ok (rs, decodedLevel l us us.length) ∧
      ∀ k u, us[k]? = some u → ∃ r, rs[k]? = some r ∧
        decByteUnder .strict u (decodedLevel l us k) = .ok (r, decodedLevel l us (k + 1)) := by
  induction us generalizing l with
  | nil => exact ⟨[], rfl, nofun⟩
  | cons v us ih =>
    obtain ⟨hvalid, hrest⟩ := List.forall_mem_cons.1 hu
    obtain ⟨r, hr, -⟩ := decByte_valid v l hvalid
    obtain ⟨rs, hrs, hbytes⟩ := ih (.ofBit (v.getLsbD 7)) hrest
    refine ⟨r :: rs, ?_, fun k u hk => ?_⟩
    · rw [List.length_cons, decodedLevel_cons]
      exact decodeUnits_cons _ _ _ _ _ _ hr hrs
    · cases k with
      | zero =>
        obtain rfl : v = u := Option.some.inj hk
        exact ⟨r, rfl, hr⟩
      | succ k =>
        rw [decodedLevel_cons, decodedLevel_cons]
        exact hbytes k u hk

/-! ### ENCODE -/

/-- Settles O33: the outcome of each side of the capacity check; the level after is High XOR the input's parity. -/
theorem encodeFollowsItsRule : Obligations.EncodeFollowsItsRule := by
  intro s l ht hd
  split_ifs with hcap
  · exact exec_encodeBuf_of_too_small s l ht hd (by omega)
  · rw [exec_encodeBuf_of_fits s l ht hd (by omega), encodeUnits_level]
    rfl

/-- Settles O34: the units stand in the written run in order, and outside the run nothing is written. -/
theorem encodeStoresUnitsAndNothingElse : Obligations.EncodeStoresUnitsAndNothingElse := by
  intro s l hwf ht hd hcap
  refine ⟨_, fun k => (encodeUnits .high ((s.mem.readBytes l.inp.base l.inputLen).take k)).2,
    exec_encodeBuf_of_fits s l ht hd (by omega), rfl, fun k hk => ?_, ?_, fun a ha => ?_⟩
  · have hbyte := Memory.getElem?_readBytes s.mem l.inp.base l.inputLen k hk
    obtain ⟨hunit, hlevel⟩ := getElem?_encodeUnits .high _ k _ hbyte
    obtain ⟨hhigh, hlow⟩ := getElem?_storeUnits _ k _ hunit
    exact ⟨hlevel, read_writeBytes_inside s.mem l.out.base _ _ _ hwf hhigh,
      read_writeBytes_inside s.mem l.out.base _ _ _ hwf hlow⟩
  · have hall : (s.mem.readBytes l.inp.base l.inputLen).take l.inputLen = s.mem.readBytes l.inp.base l.inputLen :=
      List.take_of_length_le (Nat.le_of_eq (Memory.length_readBytes _ _ _))
    simp only [hall]
    rfl
  · refine Memory.read_writeBytes_outside s.mem l.out.base a _ ?_
    rwa [length_enc, Memory.length_readBytes]

/-! ### DECODE -/

/-- Settles O35: the outcome of DECODE at each check that fails after the ones before it have passed. -/
theorem decodeReportsTheFirstError : Obligations.DecodeReportsTheFirstError := by
  intro s l ht hd
  refine ⟨fun hsmall => ?_, fun hfits hodd => ?_, fun hfits heven hinvalid => ?_⟩
  · exact exec_decodeBuf_of_too_small s l ht hd (by omega)
  · exact exec_decodeBuf_of_odd s l ht hd (by omega) hodd
  · exact exec_decodeBuf_of_invalid s l ht hd (by omega) (by omega) (List.all_eq_false.2 (by simpa using hinvalid))

section
variable (s : State) (l : Launch) (ht : l.truthful = true) (hd : l.disjoint = true)
  (hcap : l.inputLen ≤ l.outputCapacity * 2) (heven : l.inputLen % 2 = 0)
  (hu : ∀ u ∈ loadUnits (s.mem.readBytes l.inp.base l.inputLen), unitValid u = true)
include ht hd hcap heven hu

/-- DECODE that passes its checks, with the level it leaves and each byte it writes. -/
theorem exec_decodeBuf_decodedLevel : ∃ rs,
    decodeUnits .strict .high (loadUnits (s.mem.readBytes l.inp.base l.inputLen)) =
      .ok (rs, decodedLevel .high (loadUnits (s.mem.readBytes l.inp.base l.inputLen)) (l.inputLen / 2)) ∧
    rs.length = l.inputLen / 2 ∧
    (∀ k, k < l.inputLen / 2 → ∃ r, rs[k]? = some r ∧
      decByteUnder .strict (joinBytes (s.mem.read (l.inp.base + 2 * k)) (s.mem.read (l.inp.base + 2 * k + 1)))
          (decodedLevel .high (loadUnits (s.mem.readBytes l.inp.base l.inputLen)) k) =
        .ok (r, decodedLevel .high (loadUnits (s.mem.readBytes l.inp.base l.inputLen)) (k + 1))) ∧
    exec (.decodeBuf l) s = .next (((s.setMem (s.mem.writeBytes l.out.base rs)).setDecLevel
      (decodedLevel .high (loadUnits (s.mem.readBytes l.inp.base l.inputLen)) (l.inputLen / 2))).setResponse {}) := by
  obtain ⟨rs, lev, hrs, hlen, hexec⟩ :=
    exec_decodeBuf_of_valid s l ht hd (by omega) (by omega) (List.all_eq_true.2 hu)
  obtain ⟨rs', hrs', hbytes⟩ := decodeUnits_valid .high _ hu
  rw [length_loadUnits, Memory.length_readBytes] at hrs'
  obtain ⟨rfl, rfl⟩ := Prod.mk.inj (Except.ok.inj (hrs.symm.trans hrs'))
  refine ⟨rs, hrs, hlen, fun k hk => hbytes k _ ?_, hexec⟩
  have hunit := getElem?_loadUnits_readBytes s.mem l.inp.base (l.inputLen / 2) k hk
  rwa [show 2 * (l.inputLen / 2) = l.inputLen by omega] at hunit

end

/-- The level DECODE leaves is bit 7 of the last input byte, or High when there is none. -/
theorem decodedLevel_last (m : Memory) (a n : Nat) (heven : n % 2 = 0) :
    decodedLevel .high (loadUnits (m.readBytes a n)) (n / 2) =
      if n = 0 then .high else .ofBit ((m.read (a + (n - 1))).getLsbD 7) := by
  obtain ⟨j, rfl⟩ : ∃ j, n = 2 * j := ⟨n / 2, by omega⟩
  rw [Nat.mul_div_cancel_left j (by decide)]
  cases j with
  | zero => rfl
  | succ j =>
    have hunit := getElem?_loadUnits_readBytes m a (j + 1) j (by omega)
    have hbit := getLsbD_lowByte (joinBytes (m.read (a + 2 * j)) (m.read (a + 2 * j + 1))) 7
    rw [lowByte_joinBytes, decide_eq_true (by decide), Bool.true_and] at hbit
    rw [if_neg (by omega), decodedLevel, List.getD_eq_getElem?_getD, hunit, Option.getD_some, ← hbit,
      show a + (2 * (j + 1) - 1) = a + 2 * j + 1 by omega]

/-- Settles O36: the bytes the units decode to from High, and the level carried past the last unit. -/
theorem decodeWritesTheDecodedBytes : Obligations.DecodeWritesTheDecodedBytes := by
  intro s l ht hd hcap heven hu
  obtain ⟨rs, hrs, hlen, -, hexec⟩ := exec_decodeBuf_decodedLevel s l ht hd hcap heven hu
  refine ⟨rs, dec_of_decodeUnits _ rs _ hrs, hlen, ?_⟩
  rw [hexec, decodedLevel_last s.mem l.inp.base l.inputLen heven]
  rfl

/-- Settles O37: the decoded bytes stand in the written run in order, and outside the run nothing is written. -/
theorem decodeStoresBytesAndNothingElse : Obligations.DecodeStoresBytesAndNothingElse := by
  intro s l hwf ht hd hcap heven hu
  obtain ⟨rs, -, hlen, hbytes, hexec⟩ := exec_decodeBuf_decodedLevel s l ht hd hcap heven hu
  refine ⟨_, decodedLevel .high (loadUnits (s.mem.readBytes l.inp.base l.inputLen)), hexec, rfl, fun k hk => ?_, rfl,
    fun a ha => ?_⟩
  · obtain ⟨r, hr, hdec⟩ := hbytes k hk
    have hread : (s.mem.writeBytes l.out.base rs).read (l.out.base + k) = r :=
      read_writeBytes_inside s.mem l.out.base rs k r hwf hr
    rw [← joinBytes_eq_append, hdec, ← hread]
    rfl
  · exact Memory.read_writeBytes_outside s.mem l.out.base a rs (hlen ▸ ha)

/-! ### The permissive DECODE -/

theorem all_not_unitRejected_permissive (us : List CodeUnit) :
    (us.all fun u => !unitRejected .permissive u) = true :=
  List.all_eq_true.2 fun _ _ => rfl

/-- On valid units the permissive decoder is the strict one (R94). -/
theorem decodeUnits_permissive_of_valid (l : Level) (us : List CodeUnit) (hu : ∀ u ∈ us, unitValid u = true) :
    decodeUnits .permissive l us = decodeUnits .strict l us := by
  induction us generalizing l with
  | nil => rfl
  | cons u us ih =>
    obtain ⟨hvalid, hrest⟩ := List.forall_mem_cons.1 hu
    rw [decodeUnits, decodeUnits, decByte_permissive_of_unitValid u l hvalid]
    simp only [ih _ hrest]

/-- Settles O39: no unit is an error under the permissive policy; on valid units both policies decode alike. -/
theorem permissiveDecodeTakesAnyUnits : Obligations.PermissiveDecodeTakesAnyUnits := by
  intro s l ht hd hcap
  have heq := decodeBufUnder_eq .permissive l s ((launchRefusal_eq_none l).2 ⟨ht, hd⟩)
  rw [if_neg (by omega)] at heq
  refine ⟨fun heven => ?_, fun hodd => heq.trans (if_pos hodd)⟩
  obtain ⟨rs, lev, hrs, -⟩ := decodeUnits_ok .permissive .high
    (loadUnits (s.mem.readBytes l.inp.base l.inputLen)) fun _ _ => rfl
  rw [if_neg (by omega), if_pos (all_not_unitRejected_permissive _), hrs] at heq
  refine ⟨rs, lev, hrs, heq, fun hu => ?_⟩
  obtain ⟨rs', lev', hrs', -, hexec⟩ :=
    exec_decodeBuf_of_valid s l ht hd (by omega) (by omega) (List.all_eq_true.2 hu)
  rw [← decodeUnits_permissive_of_valid .high _ hu, hrs] at hrs'
  obtain ⟨rfl, rfl⟩ := Prod.mk.inj (Except.ok.inj hrs')
  rw [hexec, heq]

/-! ### The round trip through memory -/

theorem mem_wf_of_exec (i : Instr) (s t : State) (hwf : s.mem.wf) (h : exec i s = .next t) : t.mem.wf := by
  obtain ⟨-, rfl⟩ := (exec_eq_next_iff i s t).1 h
  obtain ⟨hmem, -⟩ := inv_after i s hwf
  exact hmem

/-- A code passes every check of DECODE (R104). -/
theorem decodeStatus_enc (capacity : Nat) (ds : List Byte) (h : ds.length ≤ capacity) :
    decodeStatus capacity (enc ds) = .ok := by
  have hvalid : (loadUnits (enc ds)).all unitValid = true := by
    rw [enc, loadUnits_storeUnits]
    exact List.all_eq_true.2 (unitValid_of_mem_encodeUnits .high ds)
  rw [decodeStatus, length_enc, if_neg (by omega), if_neg (by omega), if_pos hvalid]

/-- Settles O41: ENCODE leaves the code of its input in the buffer DECODE reads, and that code decodes to the input. -/
theorem bufferRoundTrip : Obligations.BufferRoundTrip := by
  intro s a b c n capB capC hwf ha hb hc hcapB hcapC hdisjB hdisjC
  have htB : (⟨a, n, b, capB⟩ : Launch).truthful = true := by simp [Launch.truthful, ha, hb]
  have htC : (⟨b, 2 * n, c, capC⟩ : Launch).truthful = true := by simp [Launch.truthful, Nat.le_trans hcapB hb, hc]
  have hlen : (s.mem.readBytes a.base n).length = n := Memory.length_readBytes _ _ _
  obtain ⟨t, hexecT, hrespT, hresT⟩ := encodeBuf_results s ⟨a, n, b, capB⟩ hwf htB hdisjB
  have hokT : t.readOk = .ok true := by
    rw [readOk_of_response t _ hrespT, encodeStatus, if_neg (Nat.not_lt.2 (by rw [hlen]; exact hcapB))]
    rfl
  obtain ⟨-, hcode⟩ := hresT hokT
  obtain ⟨u, hexecU, hrespU, hresU⟩ :=
    decodeBuf_results t ⟨b, 2 * n, c, capC⟩ (mem_wf_of_exec _ s t hwf hexecT) htC hdisjC
  have hokU : u.readOk = .ok true := by
    rw [readOk_of_response u _ hrespU, hcode, decodeStatus_enc capC _ (by rw [hlen]; exact hcapC)]
    rfl
  have hdec := hresU hokU
  rw [hcode, enc, loadUnits_storeUnits, decodeUnits_encodeUnits] at hdec
  obtain ⟨hbytes, -⟩ := Prod.mk.inj (Except.ok.inj hdec)
  rw [show 2 * n / 2 = n by omega] at hbytes
  exact ⟨t, u, hexecT, hokT, hexecU, hokU, hbytes.symm⟩

/-! ### A START and the byte operations -/

/-- ENC.BYTE issued for each byte of a sequence emits its units and leaves the level after the last (R111). -/
theorem runOps_encByte (ds : List Byte) (s : State) : ∃ u,
    runOps (ds.map .encByte) s = some (u, (encodeUnits s.encLevel ds).1.map fun q => some { q := some q }) ∧
      u.encLevel = (encodeUnits s.encLevel ds).2 := by
  induction ds generalizing s with
  | nil => exact ⟨s, rfl, rfl⟩
  | cons d ds ih =>
    obtain ⟨u, hrun, hlevel⟩ := ih _
    exact ⟨u, runOps_cons_of_exec _ _ _ _ _ _ (exec_encByte_of_encByte d s _ _ rfl) hrun, hlevel⟩

/-- DEC.UNIT issued for each unit of a valid sequence delivers the bytes it decodes to and leaves the level after the
last (R111). -/
theorem runOps_decUnit (us : List CodeUnit) (s : State) (hu : ∀ u ∈ us, unitValid u = true) : ∃ v rs,
    decodeUnits .strict s.decLevel us = .ok (rs, v.decLevel) ∧
      runOps (us.map .decUnit) s = some (v, rs.map fun r => some { r := some r }) := by
  induction us generalizing s with
  | nil => exact ⟨s, [], rfl, rfl⟩
  | cons u us ih =>
    obtain ⟨hvalid, hrest⟩ := List.forall_mem_cons.1 hu
    obtain ⟨r, hr, -⟩ := decByte_valid u s.decLevel hvalid
    obtain ⟨v, rs, hrs, hrun⟩ := ih { s with
      decLevel := .ofBit (u.getLsbD 7), response := some { r := some r } } hrest
    exact ⟨v, r :: rs, decodeUnits_cons _ _ _ _ _ _ hr hrs,
      runOps_cons_of_exec _ _ _ _ _ _ (exec_decUnit_of_decByte u s r _ hr) hrun⟩

/-- Settles O46: ENC.START leaves High, where ENCODE begins, and the run of ENC.BYTE codes the same bytes. -/
theorem encodeIsStartThenBytes : Obligations.EncodeIsStartThenBytes := by
  intro s l ht hd hcap
  obtain ⟨u, hrun, hlevel⟩ := runOps_encByte (s.mem.readBytes l.inp.base l.inputLen)
    ((s.setEncLevel .high).setResponse {})
  have hstart : exec .encStart s = .next ((s.setEncLevel .high).setResponse {}) := rfl
  exact ⟨_, u, _, exec_encodeBuf_of_fits s l ht hd (by omega), runOps_cons_of_exec _ _ _ _ _ _ hstart hrun,
    hlevel.symm, rfl⟩

/-- Settles O47: DEC.START leaves High, where DECODE begins, and the run of DEC.UNIT decodes the same units. -/
theorem decodeIsStartThenUnits : Obligations.DecodeIsStartThenUnits := by
  intro s l ht hd hcap heven hu
  obtain ⟨rs, lev, hrs, -, hexec⟩ :=
    exec_decodeBuf_of_valid s l ht hd (by omega) (by omega) (List.all_eq_true.2 hu)
  obtain ⟨v, rs', hrs', hrun⟩ := runOps_decUnit _ ((s.setDecLevel .high).setResponse {}) hu
  obtain ⟨rfl, rfl⟩ := Prod.mk.inj (Except.ok.inj (hrs.symm.trans hrs'))
  have hstart : exec .decStart s = .next ((s.setDecLevel .high).setResponse {}) := rfl
  exact ⟨_, v, rs, hexec, runOps_cons_of_exec _ _ _ _ _ _ hstart hrun, rfl, rfl⟩

/-! ### The capacity checks on length ports -/

theorem toNat_widened (w : Nat) (n : BitVec w) : (n.zeroExtend (w + 1)).toNat = n.toNat := by
  have hlt := n.isLt
  have hpow : 2 ^ (w + 1) = 2 * 2 ^ w := Nat.pow_succ'
  rw [BitVec.toNat_setWidth, Nat.mod_eq_of_lt (by omega)]

/-- One more bit holds twice the value of any port (R113 b). -/
theorem toNat_doubled (w : Nat) (n : BitVec w) : (n.zeroExtend (w + 1) <<< 1).toNat = n.toNat * 2 := by
  have hlt := n.isLt
  have hpow : 2 ^ (w + 1) = 2 * 2 ^ w := Nat.pow_succ'
  rw [BitVec.toNat_shiftLeft, toNat_widened, Nat.shiftLeft_eq, Nat.pow_one, Nat.mod_eq_of_lt (by omega)]

/-- Settles O54: neither side of the comparison loses a bit on `w + 1` bits. -/
theorem portWidthChecksAreExact : Obligations.PortWidthChecksAreExact := by
  intro w n c i o
  rw [encodeTooSmallPorts, decodeTooSmallPorts, encodeTooSmall, decodeTooSmall, BitVec.ult, BitVec.ult, toNat_doubled,
    toNat_doubled, toNat_widened, toNat_widened]
  exact ⟨rfl, rfl⟩

end Sys2Proof.Proofs.Buffers
end
